-- ==== Sys2Proof/Word.lean ====
section
/-! DEFINITION. The widths of the machine: 16-bit words and addresses, 8-bit bytes, sixteen registers
(00_scope.md R6 and R8, 10_state.md R11). Arithmetic on words is BitVec's, which wraps modulo 65536 (R8). -/

namespace Sys2Proof

/-- A register, an address or an instruction word (00_scope.md R8; XLEN = 16 in R6). -/
abbrev Word := BitVec 16

/-- One byte of the Memory Store (20_memory.md R30). -/
abbrev Byte := BitVec 8

/-- A general register's number, 0 to 15 (10_state.md R11; NREGS = 16 in 00_scope.md R6). -/
abbrev Reg := Fin 16

end Sys2Proof
end

