-- ==== Sys2Proof/Syntax.lean ====
section
/-! DEFINITION. The instructions: one constructor of `Instr` per row of the ordered rule list
(30_encoding.md R55), with the fields that R51, R52, R53 and R59 give a word. -/

namespace Sys2Proof

/-- The four operand forms of a single-operand instruction (30_encoding.md R51, values of As; 40_single_operand.md
R71 to R74), with the register number and, for indexed mode, the extension word (30_encoding.md R59). -/
inductive Operand where
  /-- As = 0: the register itself. -/
  | register (n : Reg)
  /-- As = 1: X(Rn), `ext` being the extension word. -/
  | indexed (n : Reg) (ext : Word)
  /-- As = 2: @Rn. -/
  | indirect (n : Reg)
  /-- As = 3: @Rn+. -/
  | autoincrement (n : Reg)
  deriving DecidableEq, Repr

/-- The register an operand names (10_state.md R13: `n = opcode[3:0]`). -/
def Operand.reg : Operand → Reg
  | .register n => n
  | .indexed n _ => n
  | .indirect n => n
  | .autoincrement n => n

/-- The six subtypes that the Addressing-Mode Resolver takes (40_single_operand.md R70). -/
inductive SingleOp where
  | rrc | swpb | rra | sxt | push | call
  deriving DecidableEq, Repr

/-- The eight subtypes that the Branch Evaluator takes (41_jumps.md R100). -/
inductive JumpOp where
  | jnz | jz | jnc | jc | jn | jge | jl | jmp
  deriving DecidableEq, Repr

/-- The twelve subtypes that are classified and not executed (42_double_operand_and_fallback.md R120). -/
inductive DoubleOp where
  | mov | add | addc | subc | sub | cmp | dadd | bit | bic | bis | xor | and
  deriving DecidableEq, Repr

/-- The instruction groups (00_scope.md glossary; 30_encoding.md R55). -/
inductive Group where
  | singleOperand | reti | jump | doubleOperand | unclassified
  deriving DecidableEq, Repr

/-- The group and subtype columns of the ordered rule list (30_encoding.md R55). -/
inductive Subtype where
  | single (k : SingleOp)
  | reti
  | jump (j : JumpOp)
  | double (d : DoubleOp)
  | nop
  deriving DecidableEq, Repr

/-- The group of a subtype (30_encoding.md R55; RETI's group is its own, 90_conflicts.md C5). -/
def Subtype.group : Subtype → Group
  | .single _ => .singleOperand
  | .reti => .reti
  | .jump _ => .jump
  | .double _ => .doubleOperand
  | .nop => .unclassified

/-- An instruction. `bw` is the byte/word flag, true for a byte operation (30_encoding.md R51); `f` is the
jump's offset field as it stands in the word (R52); `rest` is the twelve bits of a double-operand word that the
block does not examine (R53), kept so that no bit is lost (log entry 28); a NOP keeps its whole word (R60). -/
inductive Instr where
  | rrc (bw : Bool) (o : Operand)
  | swpb (bw : Bool) (o : Operand)
  | rra (bw : Bool) (o : Operand)
  | sxt (bw : Bool) (o : Operand)
  | push (bw : Bool) (o : Operand)
  | call (bw : Bool) (o : Operand)
  | reti
  | jnz (f : BitVec 10)
  | jz (f : BitVec 10)
  | jnc (f : BitVec 10)
  | jc (f : BitVec 10)
  | jn (f : BitVec 10)
  | jge (f : BitVec 10)
  | jl (f : BitVec 10)
  | jmp (f : BitVec 10)
  | mov (rest : BitVec 12)
  | add (rest : BitVec 12)
  | addc (rest : BitVec 12)
  | subc (rest : BitVec 12)
  | sub (rest : BitVec 12)
  | cmp (rest : BitVec 12)
  | dadd (rest : BitVec 12)
  | bit (rest : BitVec 12)
  | bic (rest : BitVec 12)
  | bis (rest : BitVec 12)
  | xor (rest : BitVec 12)
  | and (rest : BitVec 12)
  | nop (w : Word)
  deriving DecidableEq, Repr

/-- The single-operand instruction of a subtype. -/
def Instr.ofSingle (bw : Bool) (o : Operand) : SingleOp → Instr
  | .rrc => .rrc bw o
  | .swpb => .swpb bw o
  | .rra => .rra bw o
  | .sxt => .sxt bw o
  | .push => .push bw o
  | .call => .call bw o

/-- The jump of a subtype. -/
def Instr.ofJump (f : BitVec 10) : JumpOp → Instr
  | .jnz => .jnz f
  | .jz => .jz f
  | .jnc => .jnc f
  | .jc => .jc f
  | .jn => .jn f
  | .jge => .jge f
  | .jl => .jl f
  | .jmp => .jmp f

/-- The double-operand instruction of a subtype. -/
def Instr.ofDouble (rest : BitVec 12) : DoubleOp → Instr
  | .mov => .mov rest
  | .add => .add rest
  | .addc => .addc rest
  | .subc => .subc rest
  | .sub => .sub rest
  | .cmp => .cmp rest
  | .dadd => .dadd rest
  | .bit => .bit rest
  | .bic => .bic rest
  | .bis => .bis rest
  | .xor => .xor rest
  | .and => .and rest

/-- The subtype of an instruction: its row of 30_encoding.md R55. -/
def Instr.subtype : Instr → Subtype
  | .rrc _ _ => .single .rrc
  | .swpb _ _ => .single .swpb
  | .rra _ _ => .single .rra
  | .sxt _ _ => .single .sxt
  | .push _ _ => .single .push
  | .call _ _ => .single .call
  | .reti => .reti
  | .jnz _ => .jump .jnz
  | .jz _ => .jump .jz
  | .jnc _ => .jump .jnc
  | .jc _ => .jump .jc
  | .jn _ => .jump .jn
  | .jge _ => .jump .jge
  | .jl _ => .jump .jl
  | .jmp _ => .jump .jmp
  | .mov _ => .double .mov
  | .add _ => .double .add
  | .addc _ => .double .addc
  | .subc _ => .double .subc
  | .sub _ => .double .sub
  | .cmp _ => .double .cmp
  | .dadd _ => .double .dadd
  | .bit _ => .double .bit
  | .bic _ => .double .bic
  | .bis _ => .double .bis
  | .xor _ => .double .xor
  | .and _ => .double .and
  | .nop _ => .nop

/-- The operand of a single-operand instruction; the other instructions have none. -/
def Instr.operand? : Instr → Option Operand
  | .rrc _ o => some o
  | .swpb _ o => some o
  | .rra _ o => some o
  | .sxt _ o => some o
  | .push _ o => some o
  | .call _ o => some o
  | .reti => none
  | .jnz _ => none
  | .jz _ => none
  | .jnc _ => none
  | .jc _ => none
  | .jn _ => none
  | .jge _ => none
  | .jl _ => none
  | .jmp _ => none
  | .mov _ => none
  | .add _ => none
  | .addc _ => none
  | .subc _ => none
  | .sub _ => none
  | .cmp _ => none
  | .dadd _ => none
  | .bit _ => none
  | .bic _ => none
  | .bis _ => none
  | .xor _ => none
  | .and _ => none
  | .nop _ => none

/-- The extension word, which an instruction has exactly when its operand is indexed (30_encoding.md R50). -/
def Instr.ext? (i : Instr) : Option Word :=
  match i.operand? with
  | some (.indexed _ x) => some x
  | some (.register _) => none
  | some (.indirect _) => none
  | some (.autoincrement _) => none
  | none => none

end Sys2Proof
end

