-- ==== Sys2Proof/WellFormed.lean ====
section
/-! DEFINITION. Which instruction terms stand for words. Every field of a decoded row may take every value
(30_encoding.md R60, last sentences); the one condition is on NOP, whose words are those of no other row. -/

namespace Sys2Proof

/-- The 7423 words that reach the fallback, as 30_encoding.md R60 lists them: 0x0000 to 0x0FFF, 0x1301 to 0x137F,
0x1380 to 0x1FFF. Written from R60's ranges, not from the rule list of Decode.lean. -/
def isFallbackWord (w : Word) : Bool :=
  decide (w.toNat ≤ 0x0FFF) ||
  (decide (0x1301 ≤ w.toNat) && decide (w.toNat ≤ 0x137F)) ||
  (decide (0x1380 ≤ w.toNat) && decide (w.toNat ≤ 0x1FFF))

/-- The term stands for an instruction: a NOP holds a word that is no other row's. -/
def Instr.wellFormed : Instr → Bool
  | .nop w => isFallbackWord w
  | .rrc _ _ => true
  | .swpb _ _ => true
  | .rra _ _ => true
  | .sxt _ _ => true
  | .push _ _ => true
  | .call _ _ => true
  | .reti => true
  | .jnz _ => true
  | .jz _ => true
  | .jnc _ => true
  | .jc _ => true
  | .jn _ => true
  | .jge _ => true
  | .jl _ => true
  | .jmp _ => true
  | .mov _ => true
  | .add _ => true
  | .addc _ => true
  | .subc _ => true
  | .sub _ => true
  | .cmp _ => true
  | .dadd _ => true
  | .bit _ => true
  | .bic _ => true
  | .bis _ => true
  | .xor _ => true
  | .and _ => true

end Sys2Proof
end

