-- ==== Sys2Proof/Decode.lean ====
section
/-! DEFINITION. The Opcode Dispatcher's classification and the fields of a word (30_encoding.md R50 to R60), from
words and from bytes; after it the encoder, written from the same tables. No word is refused (R60); the only
rejection is of a list that is too short to hold the instruction, by name. -/

namespace Sys2Proof

/-! ### Bytes and words -/

/-- Bits 7:0 of a word. -/
def loByte (w : Word) : Byte := w.extractLsb' 0 8

/-- Bits 15:8 of a word. -/
def hiByte (w : Word) : Byte := w.extractLsb' 8 8

/-- The word of two bytes, `lo` being the byte at the lower address (20_memory.md R34, log entry 10). -/
def wordOfBytes (lo hi : Byte) : Word := hi ++ lo

/-! ### The ordered rule list -/

/-- A row of the list: a word matches when `(w & mask) = value` (30_encoding.md R55). -/
structure DispatchRule where
  mask : Word
  value : Word
  subtype : Subtype
  deriving DecidableEq, Repr

/-- The row's test (30_encoding.md R55). -/
def DispatchRule.matches (r : DispatchRule) (w : Word) : Bool := w &&& r.mask == r.value

/-- Rows 1 to 7 (30_encoding.md R55). -/
def singleOperandRules : List DispatchRule :=
  [ ⟨0xFF80#16, 0x1000#16, .single .rrc⟩,
    ⟨0xFF80#16, 0x1080#16, .single .swpb⟩,
    ⟨0xFF80#16, 0x1100#16, .single .rra⟩,
    ⟨0xFF80#16, 0x1180#16, .single .sxt⟩,
    ⟨0xFF80#16, 0x1200#16, .single .push⟩,
    ⟨0xFF80#16, 0x1280#16, .single .call⟩,
    ⟨0xFFFF#16, 0x1300#16, .reti⟩ ]

/-- Rows 8 to 15 (30_encoding.md R55). -/
def jumpRules : List DispatchRule :=
  [ ⟨0xFC00#16, 0x2000#16, .jump .jnz⟩,
    ⟨0xFC00#16, 0x2400#16, .jump .jz⟩,
    ⟨0xFC00#16, 0x2800#16, .jump .jnc⟩,
    ⟨0xFC00#16, 0x2C00#16, .jump .jc⟩,
    ⟨0xFC00#16, 0x3000#16, .jump .jn⟩,
    ⟨0xFC00#16, 0x3400#16, .jump .jge⟩,
    ⟨0xFC00#16, 0x3800#16, .jump .jl⟩,
    ⟨0xFC00#16, 0x3C00#16, .jump .jmp⟩ ]

/-- Rows 16 to 27 (30_encoding.md R55). -/
def doubleOperandRules : List DispatchRule :=
  [ ⟨0xF000#16, 0x4000#16, .double .mov⟩,
    ⟨0xF000#16, 0x5000#16, .double .add⟩,
    ⟨0xF000#16, 0x6000#16, .double .addc⟩,
    ⟨0xF000#16, 0x7000#16, .double .subc⟩,
    ⟨0xF000#16, 0x8000#16, .double .sub⟩,
    ⟨0xF000#16, 0x9000#16, .double .cmp⟩,
    ⟨0xF000#16, 0xA000#16, .double .dadd⟩,
    ⟨0xF000#16, 0xB000#16, .double .bit⟩,
    ⟨0xF000#16, 0xC000#16, .double .bic⟩,
    ⟨0xF000#16, 0xD000#16, .double .bis⟩,
    ⟨0xF000#16, 0xE000#16, .double .xor⟩,
    ⟨0xF000#16, 0xF000#16, .double .and⟩ ]

/-- Row 28, which every word matches (30_encoding.md R55). -/
def fallbackRule : DispatchRule := ⟨0x0000#16, 0x0000#16, .nop⟩

/-- The 28 rows in their order (30_encoding.md R55). -/
def ruleList : List DispatchRule :=
  singleOperandRules ++ (jumpRules ++ (doubleOperandRules ++ [fallbackRule]))

/-- The first row that a word matches (30_encoding.md R55, R57); row 28 is last, and matches. -/
def firstRule (w : Word) : DispatchRule :=
  (ruleList.find? (fun r => r.matches w)).getD fallbackRule

/-- The group and subtype of a word (30_encoding.md R57). -/
def classify (w : Word) : Subtype := (firstRule w).subtype

/-! ### Fields -/

/-- BW = w[6], true for a byte operation (30_encoding.md R51, log entry 13). -/
def byteFlag (w : Word) : Bool := w.getLsbD 6

/-- As = w[5:4] (30_encoding.md R51, log entry 13). -/
def asField (w : Word) : BitVec 2 := w.extractLsb' 4 2

/-- reg = w[3:0] (30_encoding.md R51). -/
def regField (w : Word) : Reg := (w.extractLsb' 0 4).toFin

/-- f = w[9:0] of a jump (30_encoding.md R52). -/
def jumpField (w : Word) : BitVec 10 := w.extractLsb' 0 10

/-- Bits 11:0 of a double-operand word, not examined (30_encoding.md R53). -/
def unexaminedBits (w : Word) : BitVec 12 := w.extractLsb' 0 12

/-- The operand of a single-operand word, `x` being its extension word where it has one (30_encoding.md R51, R59). -/
def operandOf (w x : Word) : Operand :=
  if asField w = 0#2 then .register (regField w)
  else if asField w = 1#2 then .indexed (regField w) x
  else if asField w = 2#2 then .indirect (regField w)
  else .autoincrement (regField w)

/-- Two words or one, told from the first word alone (30_encoding.md R50, last sentence). -/
def needsExtension (w : Word) : Bool :=
  (w &&& 0xFF80#16 == 0x1000#16 || w &&& 0xFF80#16 == 0x1080#16 || w &&& 0xFF80#16 == 0x1100#16 ||
   w &&& 0xFF80#16 == 0x1180#16 || w &&& 0xFF80#16 == 0x1200#16 || w &&& 0xFF80#16 == 0x1280#16) &&
  asField w == 1#2

/-! ### Decoding -/

/-- The instruction of an opcode word `w` whose extension word, where it has one, is `x`. Total: no word is
illegal (30_encoding.md R60, R61). -/
def decodeWords (w x : Word) : Instr :=
  match classify w with
  | .single k => .ofSingle (byteFlag w) (operandOf w x) k
  | .reti => .reti
  | .jump j => .ofJump (jumpField w) j
  | .double d => .ofDouble (unexaminedBits w) d
  | .nop => .nop w

/-- Why a list of bytes holds no instruction. -/
inductive DecodeError where
  /-- Fewer than the two bytes of an opcode word. -/
  | noOpcodeWord
  /-- An indexed operand without the two bytes of its extension word. -/
  | noExtensionWord
  deriving DecidableEq, Repr

/-- The instruction at the head of a list of bytes, lowest address first, and the bytes after it
(30_encoding.md R50, 20_memory.md R34). -/
def decode : List Byte → Except DecodeError (Instr × List Byte)
  | b0 :: b1 :: rest =>
    if needsExtension (wordOfBytes b0 b1) then
      match rest with
      | b2 :: b3 :: rest' => .ok (decodeWords (wordOfBytes b0 b1) (wordOfBytes b2 b3), rest')
      | [_] => .error .noExtensionWord
      | [] => .error .noExtensionWord
    else .ok (decodeWords (wordOfBytes b0 b1) 0#16, rest)
  | [_] => .error .noOpcodeWord
  | [] => .error .noOpcodeWord

/-- The bytes of a word, lowest address first (20_memory.md R34). -/
def wordBytes (w : Word) : List Byte := [loByte w, hiByte w]

/-- The instruction that the decoder reads from an instruction whose bits are `w`, numbered from bit 0 of the first
word, with zeros above `nbits`: the first word, then the word of bits 31:16. -/
def decodeTableWord (nbits w : Nat) : Option Instr :=
  let bits := w % 2 ^ nbits
  match decode (wordBytes (BitVec.ofNat 16 bits) ++ wordBytes (BitVec.ofNat 16 (bits / 65536))) with
  | .ok (i, _) => some i
  | .error _ => none

/-! ### Encoding -/

/-- The selector `sss` of the single-operand format (30_encoding.md R51). -/
def SingleOp.selector : SingleOp → BitVec 3
  | .rrc => 0b000#3
  | .swpb => 0b001#3
  | .rra => 0b010#3
  | .sxt => 0b011#3
  | .push => 0b100#3
  | .call => 0b101#3

/-- The condition `cond` of the jump format (30_encoding.md R52). -/
def JumpOp.cond : JumpOp → BitVec 3
  | .jnz => 0b000#3
  | .jz => 0b001#3
  | .jnc => 0b010#3
  | .jc => 0b011#3
  | .jn => 0b100#3
  | .jge => 0b101#3
  | .jl => 0b110#3
  | .jmp => 0b111#3

/-- The opcode of the double-operand format, 0x4 to 0xF in the list's order (30_encoding.md R53, R55). -/
def DoubleOp.opcode : DoubleOp → BitVec 4
  | .mov => 0x4#4
  | .add => 0x5#4
  | .addc => 0x6#4
  | .subc => 0x7#4
  | .sub => 0x8#4
  | .cmp => 0x9#4
  | .dadd => 0xA#4
  | .bit => 0xB#4
  | .bic => 0xC#4
  | .bis => 0xD#4
  | .xor => 0xE#4
  | .and => 0xF#4

/-- The value of As for an operand (30_encoding.md R51). -/
def Operand.asBits : Operand → BitVec 2
  | .register _ => 0#2
  | .indexed _ _ => 1#2
  | .indirect _ => 2#2
  | .autoincrement _ => 3#2

/-- The single-operand format, from bit 15 down: 000100, the selector, BW, As, reg (30_encoding.md R51). -/
def singleWord (k : SingleOp) (bw : Bool) (o : Operand) : Word :=
  0b000100#6 ++ k.selector ++ BitVec.ofBool bw ++ o.asBits ++ BitVec.ofFin (w := 4) o.reg

/-- The jump format, from bit 15 down: 001, the condition, f (30_encoding.md R52). -/
def jumpWord (j : JumpOp) (f : BitVec 10) : Word := 0b001#3 ++ j.cond ++ f

/-- The double-operand format: the opcode and twelve bits (30_encoding.md R53). -/
def doubleWord (d : DoubleOp) (rest : BitVec 12) : Word := d.opcode ++ rest

/-- The opcode word of an instruction. -/
def opcodeWord : Instr → Word
  | .rrc bw o => singleWord .rrc bw o
  | .swpb bw o => singleWord .swpb bw o
  | .rra bw o => singleWord .rra bw o
  | .sxt bw o => singleWord .sxt bw o
  | .push bw o => singleWord .push bw o
  | .call bw o => singleWord .call bw o
  | .reti => 0x1300#16
  | .jnz f => jumpWord .jnz f
  | .jz f => jumpWord .jz f
  | .jnc f => jumpWord .jnc f
  | .jc f => jumpWord .jc f
  | .jn f => jumpWord .jn f
  | .jge f => jumpWord .jge f
  | .jl f => jumpWord .jl f
  | .jmp f => jumpWord .jmp f
  | .mov rest => doubleWord .mov rest
  | .add rest => doubleWord .add rest
  | .addc rest => doubleWord .addc rest
  | .subc rest => doubleWord .subc rest
  | .sub rest => doubleWord .sub rest
  | .cmp rest => doubleWord .cmp rest
  | .dadd rest => doubleWord .dadd rest
  | .bit rest => doubleWord .bit rest
  | .bic rest => doubleWord .bic rest
  | .bis rest => doubleWord .bis rest
  | .xor rest => doubleWord .xor rest
  | .and rest => doubleWord .and rest
  | .nop w => w

/-- The words of an instruction: the opcode word and, for an indexed operand, the extension word
(30_encoding.md R50). -/
def encode (i : Instr) : List Word :=
  match i.ext? with
  | some x => [opcodeWord i, x]
  | none => [opcodeWord i]

/-- The bytes of an instruction, lowest address first. -/
def encodeBytes (i : Instr) : List Byte := (encode i).flatMap wordBytes

end Sys2Proof
end

