-- ==== Sys2Proof/Config.lean ====
section
/-! DEFINITION. The parameters of the block (00_scope.md R6): the fixed ones as constants, the OPEN ones
MEM_BASE, MEM_SIZE and Mut as plain data. `Config` is a field of State, so that a statement about every state is a
statement about every value of the three (log entries 3 and 8); what a choice of Mut does is `mutOf`
(Machine/OpenMutators.lean). START_ADDR and INIT_STATE are the state a run begins in. -/

namespace Sys2Proof

/-- VECTOR_BOUNDARY: the first address of the interrupt-vector region (00_scope.md R6). -/
def vectorBoundary : Word := 0xFFC0#16

/-- SENTINEL: the word that the fault repair stores (00_scope.md R6). -/
def sentinel : Word := 0xABCD#16

/-- DUMP_WORDS: the length of the diagnostic dump, in words (00_scope.md R6). -/
def dumpWords : Nat := 32

/-- INSTR_STEP: the bytes of an opcode word and of an extension word (00_scope.md R6). -/
def instrStep : Word := 2#16

/-- The values of DOUBLE_OPERAND_MODE: the spec defines one, `halt` (42_double_operand_and_fallback.md R120). -/
inductive DoubleOperandMode where
  | halt
  deriving DecidableEq, Repr

/-- DOUBLE_OPERAND_MODE (00_scope.md R6). -/
def doubleOperandMode : DoubleOperandMode := .halt

/-- The value of the OPEN parameter Mut (00_scope.md R6, 40_single_operand.md R76), named by plain data: the reference
mutators of 43_reference_execution_unit.md, or the k-th of the mutators about which nothing is known (log entry 31). -/
inductive MutChoice where
  | reference
  | other (k : Nat)
  deriving DecidableEq, Repr

/-- The OPEN parameters that a step reads (00_scope.md R6): the Memory Store's window (20_memory.md R31), its first
address and its length in bytes, and Mut. -/
structure Config where
  /-- MEM_BASE. -/
  memBase : Word
  /-- MEM_SIZE. -/
  memSize : Nat
  /-- Mut. -/
  mutators : MutChoice
  deriving DecidableEq, Repr

/-- The constraints on the window (00_scope.md R6, after the table): the base is even, the window holds at least a
word and lies in the address space. That Mut obeys its contract, the last of R6's constraints, is met by every choice of
it as `mutOf` defines it. -/
abbrev Config.wf (c : Config) : Prop :=
  c.memBase.toNat % 2 = 0 ∧ 2 ≤ c.memSize ∧ c.memBase.toNat + c.memSize ≤ 0x10000

/-- DESIGN CHOICE (log entries 3 and 8): the window of State.reset is the whole address space and its Mut is the
reference one, the setting of 95_test_vectors.md. -/
def Config.launch : Config := { memBase := 0#16, memSize := 0x10000, mutators := .reference }

end Sys2Proof
end

