-- ==== Sys2Proof/Machine/State.lean ====
section
/-! DEFINITION. The state of a session as plain data (10_state.md R10, R11, R17, R20), the ways a step can stop
(00_scope.md R7) and the launch state. -/

namespace Sys2Proof.Machine

/-- The four status flags, independent booleans (10_state.md R17, R18). -/
structure Flags where
  z : Bool
  c : Bool
  n : Bool
  v : Bool
  deriving DecidableEq, Repr

/-- The Memory Store's contents: the written bytes with their addresses. An address that is not listed is
unwritten and has no value (10_state.md R20, R21). -/
abbrev Memory := List Host.Cell

/-- The canonical form: addresses strictly rising and below 2^16. An unlisted address reads as no value, so no
entry can equal it. -/
abbrev Memory.wf (m : Memory) : Prop :=
  m.Pairwise (fun x y => x.1 < y.1) ∧ ∀ x ∈ m, x.1 < 0x10000

/-- An event on the TRACE port: `Dump(addr, words)` (40_single_operand.md R78). -/
inductive TraceEvent where
  | dump (addr : Word) (words : Nat)
  deriving DecidableEq, Repr

/-- A session between two steps: the registers, the flags and the Memory Store (10_state.md R10), and what the spec
passes in and out of a step: the OPEN parameters (log entries 3 and 8), the address of the next fetch (log entry 2)
and the events emitted so far, oldest first (log entry 9). -/
structure State where
  /-- MEM_BASE, MEM_SIZE and the choice of Mut. -/
  cfg : Config
  /-- x[0] to x[15] (10_state.md R11). -/
  regs : Vector Word 16
  /-- Z, C, N, V (10_state.md R17). -/
  flags : Flags
  /-- The Memory Store (10_state.md R20). -/
  mem : Memory
  /-- The address the next step fetches at (10_state.md R14). -/
  pc : Word
  /-- The TRACE port's output so far (40_single_operand.md R78). -/
  trace : List TraceEvent
  deriving DecidableEq, Repr

/-- The failures that the MEM port signals (20_memory.md R39), which are the kinds of Fatal (00_scope.md R7). -/
inductive FailKind where
  /-- A load from a location that was never written (60_exceptions.md R151). -/
  | uninitialized
  /-- A load or a store outside the window (60_exceptions.md R152). -/
  | outOfRange
  /-- Any other failure (20_memory.md R39); the reference Memory Store never reports one (log entry 22). -/
  | other
  deriving DecidableEq, Repr

/-- The reasons of NoResult (00_scope.md R7). -/
inductive NoResultReason where
  /-- The opcode fetch reported Uninitialized or OutOfRange (30_encoding.md R57). -/
  | fetchUnreadable
  /-- A double-operand word was classified (42_double_operand_and_fallback.md R120). -/
  | doubleOperand
  deriving DecidableEq, Repr

/-- The outcomes of a step, other than Next and Refused, that end the run (00_scope.md R7, 60_exceptions.md R150).
Each carries the state the step leaves (60_exceptions.md R154, R155; log entries 1 and 23). -/
inductive Fault where
  /-- NoResult, a normal end of the run with the state unchanged (60_exceptions.md R155). Raised by the fetch
  (30_encoding.md R57) and by MOV, ADD, ADDC, SUBC, SUB, CMP, DADD, BIT, BIC, BIS, XOR, AND
  (42_double_operand_and_fallback.md R120). Safe: the spec's own outcome, and no next state is claimed. -/
  | noResult (reason : NoResultReason) (left : State)
  /-- RetiPlaceholder, a normal end of the run with the state unchanged. Raised by RETI (40_single_operand.md R86).
  Safe: the spec's own outcome, and no next state is claimed. -/
  | retiPlaceholder (left : State)
  /-- Fatal(kind), a failed run. Raised by the extension-word load, by the second failure of an operand load, and by
  the reference mutators of PUSH and CALL (60_exceptions.md R150). Safe: the spec's own outcome. -/
  | fatal (kind : FailKind) (left : State)
  deriving DecidableEq, Repr

/-- The steps to which the spec gives no meaning. -/
inductive Refusal where
  /-- Refused(misaligned): a word access at an odd address, by the fetch, by an operand load or repair, or by the
  reference PUSH and CALL (20_memory.md R37, log entry 12). Safe: the run has no meaning from here, and none is claimed. -/
  | misaligned (left : State)
  /-- An instruction without a meaning in Machine/Dispatch.lean. Raised by no arm now. Safe: it claims nothing. -/
  | notModelled (mnemonic : String)
  deriving DecidableEq, Repr

/-- The state that a launch begins in. DESIGN CHOICE: the spec leaves every value but the unwritten memory to the
host (10_state.md R22): window (log entry 3), first address (entry 4), registers (entry 5), flags (entry 6). -/
def State.reset : State where
  cfg := Config.launch
  regs := Vector.replicate 16 0#16
  flags := { z := false, c := false, n := false, v := false }
  mem := []
  pc := 0x1000#16
  trace := []

end Sys2Proof.Machine
end

