-- ==== Sys2Proof/Machine/Ops.lean ====
section
/-! DEFINITION. The named operations over the state: the ways to end a step, the REG port, the MEM port with the
reference Memory Store behind it (20_memory.md R30 to R37), the TRACE port, and the fetch (30_encoding.md R57).
The block takes no exception (60_exceptions.md R158): every abnormal event ends the step, in one of four ways. -/

namespace Sys2Proof.Machine

/-- The outcome of a step in the host's three cases (log entry 1). -/
abbrev StepOutcome := Host.Outcome State Fault Refusal

/-- A step that has ended without a next address. -/
inductive Stop where
  | fault (f : Fault)
  | refused (r : Refusal)
  deriving DecidableEq, Repr

/-- The outcome of an ended step. -/
def Stop.outcome : Stop → StepOutcome
  | .fault f => .fault f
  | .refused r => .refused r

/-! ### Ending a step (00_scope.md R7, 60_exceptions.md R150, R154, R155) -/

/-- `Fatal(kind)`: the state stays as it is at this point, with no rollback (60_exceptions.md R154). -/
def endFatal (kind : FailKind) (s : State) : Stop := .fault (.fatal kind s)

/-- `NoResult(reason)` (60_exceptions.md R155). -/
def endNoResult (reason : NoResultReason) (s : State) : Stop := .fault (.noResult reason s)

/-- `RetiPlaceholder` (40_single_operand.md R86). -/
def endReti (s : State) : Stop := .fault (.retiPlaceholder s)

/-- `Refused(misaligned)` (20_memory.md R37). -/
def endMisaligned (s : State) : Stop := .refused (.misaligned s)

/-! ### The REG port (10_state.md R11, R17) -/

/-- `get(n)`; it never fails (10_state.md R11). -/
def State.reg (s : State) (n : Reg) : Word := s.regs[n]

/-- `set(n, v)`; no register is hard-wired (10_state.md R12). -/
def State.setReg (s : State) (n : Reg) (v : Word) : State := { s with regs := s.regs.set n v }

/-- All four flags at once; only mutators call it (10_state.md R17). -/
def State.setFlags (s : State) (f : Flags) : State := { s with flags := f }

/-- The next program counter, the `a` of `Next(a)` (10_state.md R14). -/
def State.setPc (s : State) (a : Word) : State := { s with pc := a }

/-! ### The Memory Store's contents (10_state.md R20) -/

/-- The byte at an address, if it has been written. -/
def Memory.read : Memory → Nat → Option Byte
  | [], _ => none
  | x :: m, a => if a = x.1 then some x.2 else Memory.read m a

/-- The byte at an address becomes `b` and is written. -/
def Memory.write : Memory → Nat → Byte → Memory
  | [], a, b => [(a, b)]
  | x :: m, a, b =>
    if a < x.1 then (a, b) :: x :: m
    else if a = x.1 then (a, b) :: m
    else x :: Memory.write m a b

/-- The byte at an address, none while it is unwritten (10_state.md R20, R21). -/
def State.byte (s : State) (a : Nat) : Option Byte := Memory.read s.mem a

/-- One byte written. -/
def State.setByte (s : State) (a : Nat) (b : Byte) : State := { s with mem := Memory.write s.mem a b }

/-- The two bytes of a word written, bits 7:0 at the lower address (20_memory.md R33, R34). -/
def State.setWord (s : State) (a : Word) (w : Word) : State :=
  (s.setByte a.toNat (loByte w)).setByte (a.toNat + 1) (hiByte w)

/-! ### The MEM port (20_memory.md R31 to R34, log entry 11) -/

/-- A byte address is in the window (20_memory.md R31). -/
def inRangeByte (c : Config) (a : Nat) : Bool :=
  decide (c.memBase.toNat ≤ a) && decide (a < c.memBase.toNat + c.memSize)

/-- A word access at `a` is in range: both bytes are, as integers, without wrap (20_memory.md R31). -/
def inRangeWord (c : Config) (a : Word) : Bool :=
  inRangeByte c a.toNat && inRangeByte c (a.toNat + 1)

/-- `LoadWord(a)`: the range test first, then the written-status of each byte (20_memory.md R32). -/
def loadWord (s : State) (a : Word) : Except FailKind Word :=
  if inRangeWord s.cfg a then
    match s.byte a.toNat, s.byte (a.toNat + 1) with
    | some lo, some hi => .ok (wordOfBytes lo hi)
    | some _, none => .error .uninitialized
    | none, some _ => .error .uninitialized
    | none, none => .error .uninitialized
  else .error .outOfRange

/-- `StoreWord(a, w)` (20_memory.md R33). -/
def storeWord (s : State) (a w : Word) : Except FailKind State :=
  if inRangeWord s.cfg a then .ok (s.setWord a w) else .error .outOfRange

/-- The store's byte load, under the tests of R32 for one byte (20_memory.md R35). -/
def loadByte (s : State) (a : Word) : Except FailKind Byte :=
  if inRangeByte s.cfg a.toNat then
    match s.byte a.toNat with
    | some b => .ok b
    | none => .error .uninitialized
  else .error .outOfRange

/-- The store's byte store, under the test of R33 for one byte (20_memory.md R35). -/
def storeByte (s : State) (a : Word) (b : Byte) : Except FailKind State :=
  if inRangeByte s.cfg a.toNat then .ok (s.setByte a.toNat b) else .error .outOfRange

/-! ### The block's and the mutators' accesses (00_scope.md notation, 20_memory.md R37) -/

/-- The address is odd (20_memory.md R37). -/
def isOdd (a : Word) : Bool := a.toNat % 2 == 1

/-- `MemRead(a, 2)`: an odd address is refused before the store is touched, a failure is fatal. -/
def memReadWord (s : State) (a : Word) : Except Stop Word :=
  if isOdd a then .error (endMisaligned s)
  else
    match loadWord s a with
    | .ok w => .ok w
    | .error k => .error (endFatal k s)

/-- `MemRead(a, 1)`: no alignment requirement (20_memory.md R37). -/
def memReadByte (s : State) (a : Word) : Except Stop Byte :=
  match loadByte s a with
  | .ok b => .ok b
  | .error k => .error (endFatal k s)

/-- `MemWrite(a, 2, w)`. -/
def memWriteWord (s : State) (a w : Word) : Except Stop State :=
  if isOdd a then .error (endMisaligned s)
  else
    match storeWord s a w with
    | .ok t => .ok t
    | .error k => .error (endFatal k s)

/-- `MemWrite(a, 1, b)`: no alignment requirement (20_memory.md R37). -/
def memWriteByte (s : State) (a : Word) (b : Byte) : Except Stop State :=
  match storeByte s a b with
  | .ok t => .ok t
  | .error k => .error (endFatal k s)

/-! ### The TRACE port (40_single_operand.md R78) -/

/-- `emit Dump(a, 32)`: it reads nothing, changes no architectural state and cannot fail. -/
def State.emitDump (s : State) (a : Word) : State :=
  { s with trace := s.trace ++ [TraceEvent.dump a dumpWords] }

/-! ### The fetch (30_encoding.md R57, R59) -/

/-- The address is in the interrupt-vector region (20_memory.md R38). -/
def inVectorRegion (a : Word) : Bool := decide (vectorBoundary.toNat ≤ a.toNat)

/-- The post-opcode address `a = A + 2` of the step at `s.pc` (30_encoding.md R57). -/
def State.postOpcode (s : State) : Word := s.pc + instrStep

/-- The load of the opcode word: an odd address is refused, the two named failures give "no result" and any other is
fatal (30_encoding.md R57, 60_exceptions.md R157 lines 1 and 2). -/
def fetchOpcode (s : State) : Except Stop Word :=
  if isOdd s.pc then .error (endMisaligned s)
  else
    match loadWord s s.pc with
    | .ok w => .ok w
    | .error .uninitialized => .error (endNoResult .fetchUnreadable s)
    | .error .outOfRange => .error (endNoResult .fetchUnreadable s)
    | .error .other => .error (endFatal .other s)

/-- The extension word at the post-opcode address, where the word has one; its failure is fatal and never repaired
(30_encoding.md R59, log entry 14). -/
def fetchExtension (s : State) (w : Word) : Except Stop Word :=
  if needsExtension w then memReadWord s s.postOpcode else .ok 0#16

/-- What a fetch gives a step that goes on. -/
inductive Fetched where
  /-- The stored word of a fetch in the vector region, not decoded. -/
  | vector (w : Word)
  /-- A decoded instruction. -/
  | instr (i : Instr)
  deriving DecidableEq, Repr

/-- Fetch and classification, in the order of 60_exceptions.md R157, lines 1 to 5: the vector region is tested after
the word is read and before it is classified (30_encoding.md R57). -/
def fetch (s : State) : Except Stop Fetched :=
  match fetchOpcode s with
  | .error e => .error e
  | .ok w =>
    if inVectorRegion s.pc then .ok (.vector w)
    else
      match fetchExtension s w with
      | .error e => .error e
      | .ok x => .ok (.instr (decodeWords w x))

/-! ### Placing an instruction where the next step fetches it (log entry 25) -/

/-- The step at `a` can fetch and decode two words: `a` is even and below the vector region, and both words lie in
the window. -/
def canHoldInstr (c : Config) (a : Word) : Bool :=
  !isOdd a && !inVectorRegion a && inRangeWord c a && inRangeWord c (a + instrStep)

/-- Where an instruction is placed: at the pc, or at the window's first address where the pc cannot hold one. -/
def State.fetchSite (s : State) : Word :=
  if canHoldInstr s.cfg s.pc then s.pc else s.cfg.memBase

/-- The host's word store (20_memory.md R35, 70_reset_and_hazards.md R173): nothing happens out of range. -/
def State.placeWord (s : State) (a w : Word) : State :=
  match storeWord s a w with
  | .ok t => t
  | .error _ => s

end Sys2Proof.Machine
end

