-- ==== Sys2Proof/Machine/DoubleOperand.lean ====
section
/-! DEFINITION. The twelve double-operand opcodes, classified and not executed
(42_double_operand_and_fallback.md R120 to R132), and the NOP fallback (R133). -/

namespace Sys2Proof.Machine

/-- `DoubleOperand(subtype, a, w)`: NoResult(double_operand), with no effect, for every value of the bits that are not
examined (42_double_operand_and_fallback.md R120, log entry 19). -/
def doubleOperand (_rest : BitVec 12) (s : State) : StepOutcome :=
  match doubleOperandMode with
  | .halt => (endNoResult .doubleOperand s).outcome

/-- MOV (42_double_operand_and_fallback.md R121). -/
def execMov (rest : BitVec 12) (s : State) : StepOutcome := doubleOperand rest s

/-- ADD (42_double_operand_and_fallback.md R122). -/
def execAdd (rest : BitVec 12) (s : State) : StepOutcome := doubleOperand rest s

/-- ADDC (42_double_operand_and_fallback.md R123). -/
def execAddc (rest : BitVec 12) (s : State) : StepOutcome := doubleOperand rest s

/-- SUBC (42_double_operand_and_fallback.md R124). -/
def execSubc (rest : BitVec 12) (s : State) : StepOutcome := doubleOperand rest s

/-- SUB (42_double_operand_and_fallback.md R125). -/
def execSub (rest : BitVec 12) (s : State) : StepOutcome := doubleOperand rest s

/-- CMP (42_double_operand_and_fallback.md R126). -/
def execCmp (rest : BitVec 12) (s : State) : StepOutcome := doubleOperand rest s

/-- DADD (42_double_operand_and_fallback.md R127). -/
def execDadd (rest : BitVec 12) (s : State) : StepOutcome := doubleOperand rest s

/-- BIT (42_double_operand_and_fallback.md R128). -/
def execBit (rest : BitVec 12) (s : State) : StepOutcome := doubleOperand rest s

/-- BIC (42_double_operand_and_fallback.md R129). -/
def execBic (rest : BitVec 12) (s : State) : StepOutcome := doubleOperand rest s

/-- BIS (42_double_operand_and_fallback.md R130). -/
def execBis (rest : BitVec 12) (s : State) : StepOutcome := doubleOperand rest s

/-- XOR (42_double_operand_and_fallback.md R131). -/
def execXor (rest : BitVec 12) (s : State) : StepOutcome := doubleOperand rest s

/-- AND (42_double_operand_and_fallback.md R132). -/
def execAnd (rest : BitVec 12) (s : State) : StepOutcome := doubleOperand rest s

/-- NOP: the post-opcode address and no other effect (42_double_operand_and_fallback.md R133, log entry 18). -/
def execNop (_w : Word) (s : State) : StepOutcome := .next (s.setPc s.postOpcode)

end Sys2Proof.Machine
end

