-- ==== Sys2Proof/Machine/Flags.lean ====
section
/-! DEFINITION. The flags that the reference mutators compute (43_reference_execution_unit.md R141, R143, R144) and the
conditions that the jumps read (41_jumps.md R100). -/

namespace Sys2Proof.Machine

/-- The flags of RRC and RRA, of the operand `v` and the result `r` at the operation's width: C is the bit shifted
out, N the top bit of the result, Z says that it is zero, V is cleared (43_reference_execution_unit.md R141, R143;
log entry 29). -/
def rotateFlags {w : Nat} (v r : BitVec w) : Flags :=
  { z := r == 0#w, c := v.getLsbD 0, n := r.msb, v := false }

/-- The flags of SXT, of its result: C is the negation of Z (43_reference_execution_unit.md R144). -/
def signExtendFlags (r : Word) : Flags :=
  { z := r == 0#16, c := !(r == 0#16), n := r.msb, v := false }

/-- `Taken(j)` (41_jumps.md R100). -/
def taken (f : Flags) : JumpOp → Bool
  | .jnz => !f.z
  | .jz => f.z
  | .jnc => !f.c
  | .jc => f.c
  | .jn => f.n
  | .jge => !(f.n ^^ f.v)
  | .jl => f.n ^^ f.v
  | .jmp => true

end Sys2Proof.Machine
end

