-- ==== Sys2Proof/Machine/Operands.lean ====
section
/-! DEFINITION. The operand forms: the effective address of indexed mode (40_single_operand.md R72), the operand load
with the fault repair (R75), and the jump offset (30_encoding.md R56). -/

namespace Sys2Proof.Machine

/-- The effective address of indexed mode and whether MEM_BASE was left out of it: the sum wraps first and is then
compared with the vector boundary; the base is dropped from a sum at or above it (40_single_operand.md R72,
log entry 15). -/
def indexedAddress (c : Config) (base ext : Word) : Word × Bool :=
  if inVectorRegion (c.memBase + base + ext) then (base + ext, true)
  else (c.memBase + base + ext, false)

/-- The address of the repair after a failed load at `ea`: the same after Uninitialized; after OutOfRange, MEM_BASE
is added where the mode had omitted it (40_single_operand.md R75, log entry 16). None for any other failure, which
is not repaired. -/
def repairAddress (c : Config) (ea : Word) (omitted : Bool) : FailKind → Option Word
  | .uninitialized => some ea
  | .outOfRange => if omitted then some (ea + c.memBase) else some ea
  | .other => none

/-- An operand load's value, its final address, and the state after it. -/
structure Loaded where
  value : Word
  address : Word
  state : State
  deriving DecidableEq, Repr

/-- The one repair: the sentinel is stored and the word is loaded again; a second failure is fatal
(40_single_operand.md R75). -/
def repairLoad (s : State) (ea : Word) : Except Stop Loaded :=
  match memWriteWord s ea sentinel with
  | .error e => .error e
  | .ok t =>
    match memReadWord t ea with
    | .error e => .error e
    | .ok v => .ok { value := v, address := ea, state := t }

/-- `OperandLoad(ea, omitted)` (40_single_operand.md R75): an odd address is refused, a failed load is repaired once. -/
def operandLoad (s : State) (ea : Word) (omitted : Bool) : Except Stop Loaded :=
  if isOdd ea then .error (endMisaligned s)
  else
    match loadWord s ea with
    | .ok v => .ok { value := v, address := ea, state := s }
    | .error k =>
      match repairAddress s.cfg ea omitted k with
      | some ea2 => repairLoad s ea2
      | none => .error (endFatal k s)

/-- The effective address of a memory operand and whether MEM_BASE is omitted from it; a register operand has none
(40_single_operand.md R71 to R74). -/
def effectiveAddress (s : State) : Operand → Option (Word × Bool)
  | .register _ => none
  | .indexed n x => some (indexedAddress s.cfg (s.reg n) x)
  | .indirect n => some (s.reg n, true)
  | .autoincrement n => some (s.reg n, true)

/-- `lin`, the linear successor: the address after the whole instruction (40_single_operand.md R71 to R74). -/
def linearSuccessor (s : State) : Operand → Word
  | .register _ => s.postOpcode
  | .indexed _ _ => s.postOpcode + instrStep
  | .indirect _ => s.postOpcode
  | .autoincrement _ => s.postOpcode

/-- The autoincrement: by 1 for a byte operation, else by 2 (40_single_operand.md R74). -/
def incrementAmount (bw : Bool) : Word := if bw then 1#16 else 2#16

/-- `JumpOffset(w)` of the field f, in words: 1 is subtracted first, then bit 9 is extended (30_encoding.md R56). -/
def jumpOffset (f : BitVec 10) : Word :=
  let t : Word := f.zeroExtend 16 - 1#16
  if t.getLsbD 9 then t ||| 0xFE00#16 else t

/-- The candidate target: the post-opcode address plus twice the offset, modulo 2^16 (41_jumps.md R100). -/
def jumpTarget (s : State) (f : BitVec 10) : Word := s.postOpcode + 2#16 * jumpOffset f

end Sys2Proof.Machine
end

