-- ==== Sys2Proof/Machine/Jumps.lean ====
section
/-! DEFINITION. The Branch Evaluator (41_jumps.md R100) and the eight jumps (R101 to R108). -/

namespace Sys2Proof.Machine

/-- `Branch(j, a, w)` (41_jumps.md R100): the target when taken, else the post-opcode address; nothing else changes
(R109). -/
def branch (j : JumpOp) (f : BitVec 10) (s : State) : StepOutcome :=
  .next (s.setPc (if taken s.flags j then jumpTarget s f else s.postOpcode))

/-- JNZ (41_jumps.md R101). -/
def execJnz (f : BitVec 10) (s : State) : StepOutcome := branch .jnz f s

/-- JZ (41_jumps.md R102). -/
def execJz (f : BitVec 10) (s : State) : StepOutcome := branch .jz f s

/-- JNC (41_jumps.md R103). -/
def execJnc (f : BitVec 10) (s : State) : StepOutcome := branch .jnc f s

/-- JC (41_jumps.md R104). -/
def execJc (f : BitVec 10) (s : State) : StepOutcome := branch .jc f s

/-- JN (41_jumps.md R105). -/
def execJn (f : BitVec 10) (s : State) : StepOutcome := branch .jn f s

/-- JGE (41_jumps.md R106). -/
def execJge (f : BitVec 10) (s : State) : StepOutcome := branch .jge f s

/-- JL (41_jumps.md R107). -/
def execJl (f : BitVec 10) (s : State) : StepOutcome := branch .jl f s

/-- JMP (41_jumps.md R108). -/
def execJmp (f : BitVec 10) (s : State) : StepOutcome := branch .jmp f s

end Sys2Proof.Machine
end

