-- ==== Sys2Proof/Machine/Resolver.lean ====
section
/-! DEFINITION. The Addressing-Mode Resolver (40_single_operand.md R70 to R79), for any mutators: `Mut` is its
argument, as the spec's OPEN parameter (R76). The instructions call it with the session's Mut
(Machine/OpenMutators.lean, log entry 8). -/

namespace Sys2Proof.Machine

/-- One mutator: the register number, the raw opcode word, `lin`, and the state; the state after it, or the stop with
the state reached so far (40_single_operand.md R76). -/
abbrev Mutator := Reg → Word → Word → State → Except Stop State

/-- `Mut`: one mutator per subtype (40_single_operand.md R76). -/
abbrev Mut := SingleOp → Mutator

/-- The operand of a memory mode, loaded into the operand's own register (40_single_operand.md R72, R73, R74): the
load's final address with the state after the register write. -/
def loadIntoRegister (s : State) (n : Reg) (ea : Word) (omitted : Bool) : Except Stop (Word × State) :=
  match operandLoad s ea omitted with
  | .error e => .error e
  | .ok l => .ok (l.address, l.state.setReg n l.value)

/-- The dump of indirect-register mode, for PUSH and CALL only (40_single_operand.md R73, R78; log entry 9). -/
def dumpIndirect (k : SingleOp) (address : Word) (s : State) : State :=
  if k = .push ∨ k = .call then s.emitDump address else s

/-- The state in which the mutator of subtype `k` is invoked, or the stop of the operand load. -/
def operandPhase (k : SingleOp) (s : State) : Operand → Except Stop State
  /- R71: no address arithmetic and no load. -/
  | .register _ => .ok s
  /- R72. -/
  | .indexed n ext =>
    match loadIntoRegister s n (indexedAddress s.cfg (s.reg n) ext).1 (indexedAddress s.cfg (s.reg n) ext).2 with
    | .error e => .error e
    | .ok (_, t) => .ok t
  /- R73: the dump comes after the load and the register write, before the mutator. -/
  | .indirect n =>
    match loadIntoRegister s n (s.reg n) true with
    | .error e => .error e
    | .ok (a, t) => .ok (dumpIndirect k a t)
  /- R74: as R73, without the dump. -/
  | .autoincrement n =>
    match loadIntoRegister s n (s.reg n) true with
    | .error e => .error e
    | .ok (_, t) => .ok t

/-- The autoincrement after the mutator, added to the register as the mutator left it (40_single_operand.md R74,
log entry 26); the other modes have none. -/
def incrementPhase (bw : Bool) (s : State) : Operand → State
  | .register _ => s
  | .indexed _ _ => s
  | .indirect _ => s
  | .autoincrement n => s.setReg n (s.reg n + incrementAmount bw)

/-- `Result(s, lin)`: the linear successor, or x[0] as it stands now for CALL (40_single_operand.md R77,
log entry 17). -/
def resolverResult (k : SingleOp) (lin : Word) (s : State) : StepOutcome :=
  .next (s.setPc (if k = .call then s.reg 0 else lin))

/-- `Resolve(s, a, w)` (40_single_operand.md R70): operand, mutator, increment, result, in the order of
60_exceptions.md R157, the same for all subtypes and registers (R79). -/
def resolve (M : Mut) (k : SingleOp) (bw : Bool) (o : Operand) (s : State) : StepOutcome :=
  match operandPhase k s o with
  | .error e => e.outcome
  | .ok t =>
    match M k o.reg (singleWord k bw o) (linearSuccessor s o) t with
    | .error e => e.outcome
    | .ok u => resolverResult k (linearSuccessor s o) (incrementPhase bw u o)

end Sys2Proof.Machine
end

