-- ==== Sys2Proof/Machine/Mutators.lean ====
section
/-! DEFINITION. The reference mutators `RefMut` (43_reference_execution_unit.md R140 to R147). The spec marks their
bodies as general knowledge and Mut as OPEN: they are one choice of it (log entry 8). -/

namespace Sys2Proof.Machine

/-- RRC's word result: the carry enters at bit 15 (43_reference_execution_unit.md R141). -/
def rrcWord (c : Bool) (v : Word) : Word := (if c then 0x8000#16 else 0#16) ||| (v >>> 1)

/-- RRC's byte result: the carry enters at bit 7 (43_reference_execution_unit.md R141). -/
def rrcByte (c : Bool) (v : Byte) : Byte := (if c then 0x80#8 else 0#8) ||| (v >>> 1)

/-- RRA's word result: the sign bit is kept (43_reference_execution_unit.md R143). -/
def rraWord (v : Word) : Word := v.extractLsb' 15 1 ++ v.extractLsb' 1 15

/-- RRA's byte result (43_reference_execution_unit.md R143). -/
def rraByte (v : Byte) : Byte := v.extractLsb' 7 1 ++ v.extractLsb' 1 7

/-- SWPB's result (43_reference_execution_unit.md R142). -/
def swapBytes (v : Word) : Word := loByte v ++ hiByte v

/-- SXT's result (43_reference_execution_unit.md R144). -/
def signExtendByte (v : Word) : Word := (loByte v).signExtend 16

/-- A byte result goes to the register zero-extended (43_reference_execution_unit.md R140). -/
def zeroExtendByte (r : Byte) : Word := r.zeroExtend 16

/-- RefMut(RRC) (43_reference_execution_unit.md R141). -/
def mutRrc : Mutator := fun n w _lin s =>
  if byteFlag w then
    let v := loByte (s.reg n)
    let r := rrcByte s.flags.c v
    .ok ((s.setReg n (zeroExtendByte r)).setFlags (rotateFlags v r))
  else
    let v := s.reg n
    let r := rrcWord s.flags.c v
    .ok ((s.setReg n r).setFlags (rotateFlags v r))

/-- RefMut(SWPB), for either value of BW (43_reference_execution_unit.md R142). -/
def mutSwpb : Mutator := fun n _w _lin s => .ok (s.setReg n (swapBytes (s.reg n)))

/-- RefMut(RRA) (43_reference_execution_unit.md R143). -/
def mutRra : Mutator := fun n w _lin s =>
  if byteFlag w then
    let v := loByte (s.reg n)
    let r := rraByte v
    .ok ((s.setReg n (zeroExtendByte r)).setFlags (rotateFlags v r))
  else
    let v := s.reg n
    let r := rraWord v
    .ok ((s.setReg n r).setFlags (rotateFlags v r))

/-- RefMut(SXT), for either value of BW (43_reference_execution_unit.md R144). -/
def mutSxt : Mutator := fun n _w _lin s =>
  let r := signExtendByte (s.reg n)
  .ok ((s.setReg n r).setFlags (signExtendFlags r))

/-- The stack slot of PUSH and CALL: x[1] - 2, for words and bytes (43_reference_execution_unit.md R145, R146). -/
def stackSlot (s : State) : Word := s.reg 1 - 2#16

/-- A push: the stack pointer x[1] moves to `sp`, then the word `v`, or in a byte form its low byte, is stored there; a
failing store leaves x[1] moved (40_single_operand.md R84, R85; 60_exceptions.md R154). -/
def pushOnStack (byte : Bool) (sp v : Word) (s : State) : Except Stop State :=
  if byte then memWriteByte (s.setReg 1 sp) sp (loByte v) else memWriteWord (s.setReg 1 sp) sp v

/-- CALL on the stack: `ret` is pushed at `sp`, then x[0] gets the call target (40_single_operand.md R85). -/
def callOnStack (sp ret target : Word) (s : State) : Except Stop State :=
  match pushOnStack false sp ret s with
  | .error e => .error e
  | .ok t => .ok (t.setReg 0 target)

/-- RefMut(PUSH): the operand is read before x[1] moves, and x[1] moves before the store, so that a failing store
leaves it moved (43_reference_execution_unit.md R145). -/
def mutPush : Mutator := fun n w _lin s => pushOnStack (byteFlag w) (stackSlot s) (s.reg n) s

/-- RefMut(CALL): the target is read first, `lin` is pushed, x[0] is written last (43_reference_execution_unit.md
R146). -/
def mutCall : Mutator := fun n _w lin s => callOnStack (stackSlot s) lin (s.reg n) s

/-- RefMut (43_reference_execution_unit.md R140). -/
def refMut : Mut
  | .rrc => mutRrc
  | .swpb => mutSwpb
  | .rra => mutRra
  | .sxt => mutSxt
  | .push => mutPush
  | .call => mutCall

end Sys2Proof.Machine
end

