-- ==== Sys2Proof/Machine/OpenMutators.lean ====
section
/-! DEFINITION. The OPEN parameter Mut (00_scope.md R6, 40_single_operand.md R76) for a step: the reference mutators, or
mutators about which nothing is known but the contract. A mutator reaches the machine through the REG and MEM ports only
(R76 c), so what an unknown one does is a list of port operations that an opaque constant gives, with the push of PUSH and
of CALL and the target of CALL after them (R76 d and e; R84, R85). What the spec leaves to the mutator of a push, the
amount of the decrement, the width stored and the return address, is the opaque constant's too. Run through the model's own
ports, all of it meets the contract, whatever the constant is (log entries 31 and 32). -/

namespace Sys2Proof.Machine

/-- One operation of a mutator on a port: the register, the flags, or a load or store of the Memory Store
(40_single_operand.md R76 c). A load's value needs no place here, since the list may depend on all of memory. -/
inductive MutAction where
  | setReg (n : Reg) (v : Word)
  | setFlags (f : Flags)
  | loadWord (a : Word)
  | loadByte (a : Word)
  | storeWord (a w : Word)
  | storeByte (a : Word) (b : Byte)
  deriving DecidableEq, Repr

/-- What the spec leaves open of one run of a mutator (40_single_operand.md R76, R84, R85; log entry 31): its port operations,
and for PUSH and CALL the amount by which x[1] moves down, less one (so that it is not 0), whether PUSH stores the operand's
low byte only, and the return address that CALL pushes. -/
structure MutPlan where
  actions : List MutAction
  amountLessOne : Fin 0xFFFF
  byteStore : Bool
  returnAddress : Word
  deriving DecidableEq, Repr, Inhabited

/-- The amount by which PUSH and CALL move x[1] down: any but 0, modulo 2^16. -/
def MutPlan.amount (p : MutPlan) : Word := BitVec.ofNat 16 (p.amountLessOne.val + 1)

end Sys2Proof.Machine

namespace Sys2Proof

/-- What the k-th unknown mutators do, as a function of the mutator's arguments (40_single_operand.md R76: subtype, register
number, raw opcode word, `lin`) and of what it may read: the parameters, the registers, the flags and the memory. It has no
body: nothing can be proved of its value. -/
opaque Config.openMutator (k : Nat) (sub : SingleOp) (n : Reg) (w lin : Word) (c : Config) (regs : Vector Word 16)
    (flags : Machine.Flags) (mem : Machine.Memory) : Machine.MutPlan

end Sys2Proof

namespace Sys2Proof.Machine

/-- One operation performed; a failing access ends the step and is not caught (40_single_operand.md R76 f). -/
def runAction (s : State) : MutAction → Except Stop State
  | .setReg n v => .ok (s.setReg n v)
  | .setFlags f => .ok (s.setFlags f)
  | .loadWord a =>
    match memReadWord s a with
    | .error e => .error e
    | .ok _ => .ok s
  | .loadByte a =>
    match memReadByte s a with
    | .error e => .error e
    | .ok _ => .ok s
  | .storeWord a w => memWriteWord s a w
  | .storeByte a b => memWriteByte s a b

/-- The operations in their order, up to the first that ends the step; the earlier ones stay (60_exceptions.md R154). -/
def runActions (s : State) : List MutAction → Except Stop State
  | [] => .ok s
  | x :: xs =>
    match runAction s x with
    | .error e => .error e
    | .ok t => runActions t xs

/-- What the spec gives PUSH and CALL under every Mut, with operand `v` and stack pointer `sp` as they stood at the call: PUSH
moves x[1] down and stores the operand there (40_single_operand.md R76 e, R84), CALL pushes a return address so and sets
x[0] to its operand (R76 a and d, R85). The other four have no effect of this kind. -/
def stackEffect (p : MutPlan) (v sp : Word) (s : State) : SingleOp → Except Stop State
  | .rrc => .ok s
  | .swpb => .ok s
  | .rra => .ok s
  | .sxt => .ok s
  | .push => pushOnStack p.byteStore (sp - p.amount) v s
  | .call => callOnStack (sp - p.amount) p.returnAddress v s

/-- A mutator that follows a plan: its port operations, then the effect on the stack. -/
def runPlan (p : MutPlan) (sub : SingleOp) (n : Reg) (s : State) : Except Stop State :=
  match runActions s p.actions with
  | .error e => .error e
  | .ok t => stackEffect p (s.reg n) (s.reg 1) t sub

/-- The k-th unknown mutators. -/
def openMut (k : Nat) : Mut := fun sub n w lin s =>
  runPlan (Config.openMutator k sub n w lin s.cfg s.regs s.flags s.mem) sub n s

/-- The Mut of a session (00_scope.md R6). -/
def mutOf (c : Config) : Mut :=
  match c.mutators with
  | .reference => refMut
  | .other k => openMut k

end Sys2Proof.Machine
end

