-- ==== Sys2Proof/Machine/SingleOperand.lean ====
section
/-! DEFINITION. The single-operand family (40_single_operand.md R80 to R86): the resolver with the mutators
that the session's OPEN parameter Mut names (00_scope.md R6, log entry 8), and RETI, which does not go through it. -/

namespace Sys2Proof.Machine

/-- RRC (40_single_operand.md R80). -/
def execRrc (bw : Bool) (o : Operand) (s : State) : StepOutcome := resolve (mutOf s.cfg) .rrc bw o s

/-- SWPB (40_single_operand.md R81). -/
def execSwpb (bw : Bool) (o : Operand) (s : State) : StepOutcome := resolve (mutOf s.cfg) .swpb bw o s

/-- RRA (40_single_operand.md R82). -/
def execRra (bw : Bool) (o : Operand) (s : State) : StepOutcome := resolve (mutOf s.cfg) .rra bw o s

/-- SXT (40_single_operand.md R83). -/
def execSxt (bw : Bool) (o : Operand) (s : State) : StepOutcome := resolve (mutOf s.cfg) .sxt bw o s

/-- PUSH (40_single_operand.md R84). -/
def execPush (bw : Bool) (o : Operand) (s : State) : StepOutcome := resolve (mutOf s.cfg) .push bw o s

/-- CALL (40_single_operand.md R85). -/
def execCall (bw : Bool) (o : Operand) (s : State) : StepOutcome := resolve (mutOf s.cfg) .call bw o s

/-- RETI: the outcome RetiPlaceholder, the state untouched (40_single_operand.md R86, log entry 19). -/
def execReti (s : State) : StepOutcome := (endReti s).outcome

end Sys2Proof.Machine
end

