-- ==== Sys2Proof/Machine/Dispatch.lean ====
section
/-! DEFINITION. The instruction-dispatch multiplexer (30_encoding.md R58): one arm per instruction. -/

namespace Sys2Proof.Machine

/-- The handler of each instruction (30_encoding.md R58): exactly one runs, and its outcome is the step's. -/
def exec (i : Instr) (s : State) : Host.Outcome State Fault Refusal :=
  match i with
  | .rrc bw o => Sys2Proof.Machine.execRrc bw o s
  | .swpb bw o => Sys2Proof.Machine.execSwpb bw o s
  | .rra bw o => Sys2Proof.Machine.execRra bw o s
  | .sxt bw o => Sys2Proof.Machine.execSxt bw o s
  | .push bw o => Sys2Proof.Machine.execPush bw o s
  | .call bw o => Sys2Proof.Machine.execCall bw o s
  | .reti => Sys2Proof.Machine.execReti s
  | .jnz f => Sys2Proof.Machine.execJnz f s
  | .jz f => Sys2Proof.Machine.execJz f s
  | .jnc f => Sys2Proof.Machine.execJnc f s
  | .jc f => Sys2Proof.Machine.execJc f s
  | .jn f => Sys2Proof.Machine.execJn f s
  | .jge f => Sys2Proof.Machine.execJge f s
  | .jl f => Sys2Proof.Machine.execJl f s
  | .jmp f => Sys2Proof.Machine.execJmp f s
  | .mov rest => Sys2Proof.Machine.execMov rest s
  | .add rest => Sys2Proof.Machine.execAdd rest s
  | .addc rest => Sys2Proof.Machine.execAddc rest s
  | .subc rest => Sys2Proof.Machine.execSubc rest s
  | .sub rest => Sys2Proof.Machine.execSub rest s
  | .cmp rest => Sys2Proof.Machine.execCmp rest s
  | .dadd rest => Sys2Proof.Machine.execDadd rest s
  | .bit rest => Sys2Proof.Machine.execBit rest s
  | .bic rest => Sys2Proof.Machine.execBic rest s
  | .bis rest => Sys2Proof.Machine.execBis rest s
  | .xor rest => Sys2Proof.Machine.execXor rest s
  | .and rest => Sys2Proof.Machine.execAnd rest s
  | .nop w => Sys2Proof.Machine.execNop w s

end Sys2Proof.Machine
end

