-- ==== Sys2Proof/Machine/Step.lean ====
section
/-! DEFINITION. One step, `one_step(A)` at A = `s.pc` (30_encoding.md R57), and the placing of an instruction where
the next step fetches it. -/

namespace Sys2Proof.Machine

/-- One fetch-decode-execute cycle (30_encoding.md R57): a fetch that ends the step, the vector shortcut, or the
handler of the decoded instruction. -/
def step (s : State) : Host.Outcome State Fault Refusal :=
  match fetch s with
  | .error e => e.outcome
  | .ok (.vector w) => .next (s.setPc w)
  | .ok (.instr i) => exec i s

/-- `s` with the instruction of bits `w` stored where the next step fetches it, as the host loads a program
(70_reset_and_hazards.md R173; log entry 25): two words, the second one zero where the table gives it no bits. -/
def State.withFetchWord (s : State) (nbits w : Nat) : State :=
  ((s.setPc s.fetchSite).placeWord s.fetchSite (BitVec.ofNat 16 (w % 2 ^ nbits))).placeWord
    (s.fetchSite + instrStep) (BitVec.ofNat 16 (w % 2 ^ nbits / 65536))

end Sys2Proof.Machine
end

