-- ==== Sys2Proof/Safety.lean ====
section
/-! DEFINITION. The terms that the statements use: the invariant of the state, what an outcome means for a run
(70_reset_and_hazards.md R183), the contract of a mutator (40_single_operand.md R76), and when an operand can be
loaded and what its load gives, said from R75's text and not through the model's `operandLoad`. -/

namespace Sys2Proof.Safety

open Sys2Proof.Machine

/-! ### The invariant -/

/-- Every written byte lies in the window: an address outside it holds nothing (10_state.md R20). -/
abbrev WindowHolds (s : State) : Prop :=
  ∀ x ∈ s.mem, inRangeByte s.cfg x.1 = true

/-- The parameters meet their constraints (00_scope.md R6), memory has its canonical form and lies in the window. -/
abbrev Inv (s : State) : Prop :=
  s.cfg.wf ∧ Memory.wf s.mem ∧ WindowHolds s

/-! ### Outcomes and runs (70_reset_and_hazards.md R183) -/

/-- The state that an outcome leaves; a refusal of an arm without a meaning leaves none. -/
def leftState : StepOutcome → Option State
  | .next s => some s
  | .fault (.noResult _ s) => some s
  | .fault (.retiPlaceholder s) => some s
  | .fault (.fatal _ s) => some s
  | .refused (.misaligned s) => some s
  | .refused _ => none

/-- What an outcome means for its run (70_reset_and_hazards.md R183, 92_eei_decisions.md D23). -/
inductive Verdict where
  /-- `Next`: the run goes on. -/
  | goesOn
  /-- NoResult or RetiPlaceholder: the run has ended normally. -/
  | normalEnd
  /-- Fatal: the run has failed. -/
  | failed
  /-- Refused: the run has no meaning under the spec. -/
  | noMeaning
  deriving DecidableEq, Repr

/-- The verdict of an outcome. -/
def verdict : StepOutcome → Verdict
  | .next _ => .goesOn
  | .fault (.noResult _ _) => .normalEnd
  | .fault (.retiPlaceholder _) => .normalEnd
  | .fault (.fatal _ _) => .failed
  | .refused _ => .noMeaning

/-- A safe step goes on or ends the run normally: Fatal and Refused are never successes (R183). -/
def SafeStep (s : State) : Prop := verdict (step s) = .goesOn ∨ verdict (step s) = .normalEnd

/-! ### Mutators -/

/-- x[1], the stack pointer, has moved down from `s` to `t`, by some amount modulo 2^16 that is not 0: the amount is the
mutator's (40_single_operand.md R84, log entry 32). -/
def StackMoved (s t : State) : Prop := ∃ d : Word, d ≠ 0 ∧ t.reg 1 = s.reg 1 - d

/-- `v` stands on the stack of `t`, where x[1] points, as a word or as its low byte: the width is the mutator's
(40_single_operand.md R84, log entry 32). -/
def OnStack (t : State) (v : Word) : Prop :=
  loadWord t (t.reg 1) = .ok v ∨ t.byte (t.reg 1).toNat = some (loByte v)

/-- The contract of `Mut` (40_single_operand.md R76, log entry 30): a mutator changes registers, flags and memory only,
memory through the MEM port, so that the invariant stays (c, g); PUSH moves the stack pointer down and stores the operand
there (a, e); CALL moves it down, stores a return address there and leaves the operand it was given in x[0] (a, d); a stop
of its own is Fatal or Refused, with the state it reached (f). -/
def MutContract (M : Mut) : Prop :=
  ∀ k n w lin s,
    match M k n w lin s with
    | .ok t => t.cfg = s.cfg ∧ t.pc = s.pc ∧ t.trace = s.trace ∧ (Inv s → Inv t) ∧
        (k = .push → StackMoved s t ∧ OnStack t (s.reg n)) ∧
        (k = .call → StackMoved s t ∧ (∃ ret, loadWord t (t.reg 1) = .ok ret) ∧ t.reg 0 = s.reg n)
    | .error e => (∃ t kind, e = .fault (.fatal kind t) ∧ (Inv s → Inv t)) ∨
        (∃ t, e = .refused (.misaligned t) ∧ (Inv s → Inv t))

/-! ### Operands -/

/-- The word at an address, when it is in range and both bytes are written (20_memory.md R32). -/
def wordAt (s : State) (a : Word) : Option Word :=
  if inRangeWord s.cfg a then
    (s.byte a.toNat).bind fun lo => (s.byte (a.toNat + 1)).map fun hi => wordOfBytes lo hi
  else none

/-- A load at `ea` succeeds, at once or after the repair: `ea` is even and in range, or `ea` is even, MEM_BASE is omitted
from it, and with MEM_BASE added it is even and in range (40_single_operand.md R75). -/
abbrev LoadReady (s : State) (ea : Word) (omitted : Bool) : Prop :=
  isOdd ea = false ∧
    (inRangeWord s.cfg ea = true ∨
      (omitted = true ∧ isOdd (ea + s.cfg.memBase) = false ∧ inRangeWord s.cfg (ea + s.cfg.memBase) = true))

/-- The operand can be loaded; a register operand always can (40_single_operand.md R71). -/
abbrev OperandReady (s : State) (o : Operand) : Prop :=
  match effectiveAddress s o with
  | none => True
  | some (ea, omitted) => LoadReady s ea omitted

/-- Where a repaired load at `ea` ends: at `ea` when that is in range, else with MEM_BASE added
(40_single_operand.md R75). -/
def finalAddress (s : State) (ea : Word) : Word :=
  if inRangeWord s.cfg ea then ea else ea + s.cfg.memBase

/-- The state after a load at `ea` that succeeds, with its value in register `n`: the stored word, or the sentinel,
stored at the final address (40_single_operand.md R75). -/
def loadedState (s : State) (n : Reg) (ea : Word) : State :=
  match wordAt s ea with
  | some v => s.setReg n v
  | none => (s.setWord (finalAddress s ea) sentinel).setReg n sentinel

/-- The state in which the mutator finds its operand, when the operand can be loaded, less the trace event. -/
def operandState (s : State) (o : Operand) : State :=
  match effectiveAddress s o with
  | none => s
  | some (ea, _) => loadedState s o.reg ea

/-- The trace event of PUSH and CALL in indirect-register mode, at the load's final address (40_single_operand.md R73,
R78). -/
def withDump (s : State) (o : Operand) (t : State) : State :=
  match o with
  | .register _ => t
  | .indexed _ _ => t
  | .indirect n => t.emitDump (finalAddress s (s.reg n))
  | .autoincrement _ => t

/-- The address at which the operand load stores the sentinel, through the functions that the operand load calls: none
for a register operand and for a load that succeeds at once. -/
def repairSite (s : State) (o : Operand) : Option Word :=
  match effectiveAddress s o with
  | none => none
  | some (ea, omitted) =>
    match loadWord s ea with
    | .ok _ => none
    | .error k => repairAddress s.cfg ea omitted k

/-- The address after the whole instruction: A + 4 with an extension word, else A + 2 (10_state.md R15). -/
def nextAddress (s : State) (o : Operand) : Word :=
  match o with
  | .register _ => s.pc + 2#16
  | .indexed _ _ => s.pc + 4#16
  | .indirect _ => s.pc + 2#16
  | .autoincrement _ => s.pc + 2#16

/-- What mode 3 adds to the operand's register after the mutator, 1 for a byte operation and else 2; nothing in the
other modes (40_single_operand.md R74). -/
def increment (bw : Bool) (o : Operand) : Word :=
  match o with
  | .register _ => 0#16
  | .indexed _ _ => 0#16
  | .indirect _ => 0#16
  | .autoincrement _ => if bw then 1#16 else 2#16

/-- `s` with the increment added to the operand's register. -/
def incremented (bw : Bool) (o : Operand) (s : State) : State :=
  s.setReg o.reg (s.reg o.reg + increment bw o)

/-- The instruction at the pc is `i`: the fetch gives it, decoded. -/
def Fetches (s : State) (i : Instr) : Prop := fetch s = .ok (.instr i)

/-- `a` is one of the two bytes of the word at `b`. -/
abbrev InWord (a : Nat) (b : Word) : Prop := a = b.toNat ∨ a = b.toNat + 1

end Sys2Proof.Safety
end

