-- ==== Sys2Proof/Certificates/Slice0/Obligations.lean ====
section
/-! DEFINITION. The statements for the provers. Each cites the rules of spec/ it rests on; a statement that
rests on a decision of the spec, on its general knowledge or on a choice of the model says so, and has basis 'derived'
in OBLIGATIONS.json. -/

open Sys2Proof Sys2Proof.Machine Sys2Proof.Safety

/-! ### Encoding -/

/-- Decoding the bytes of any well-formed instruction gives it back with every operand, and the bytes after it
(30_encoding.md R50 to R54, R59). Field positions and byte order: log entries 13 and 10. -/
def Obligations.DecodeOfEncode : Prop :=
  ∀ (i : Instr) (rest : List Byte), i.wellFormed = true → decode (encodeBytes i ++ rest) = .ok (i, rest)

/-- Every word decodes to a well-formed instruction that encodes to the same words (30_encoding.md R60: no word is
illegal; R50: the length). -/
def Obligations.EncodeOfDecode : Prop :=
  ∀ w x : Word, (decodeWords w x).wellFormed = true ∧
    encode (decodeWords w x) = if needsExtension w then [w, x] else [w]

/-- Rows 1 to 27 are disjoint: no word matches two of them (30_encoding.md R61). -/
def Obligations.RowsAreDisjoint : Prop :=
  ∀ (w : Word) (r q : DispatchRule), r ∈ singleOperandRules ++ (jumpRules ++ doubleOperandRules) →
    q ∈ singleOperandRules ++ (jumpRules ++ doubleOperandRules) →
    r.matches w = true → q.matches w = true → r = q

/-- The words that reach the fallback are exactly those of R60's list (30_encoding.md R60). -/
def Obligations.FallbackWordsAreR60s : Prop :=
  ∀ w : Word, classify w = .nop ↔
    (w.toNat ≤ 0x0FFF ∨ (0x1301 ≤ w.toNat ∧ w.toNat ≤ 0x137F) ∨ (0x1380 ≤ w.toNat ∧ w.toNat ≤ 0x1FFF))

/-- RETI is matched as a whole word, and the words that share its upper nine bits match no row but the fallback
(30_encoding.md R54). -/
def Obligations.RetiMatchesTheWholeWord : Prop :=
  ∀ w : Word, (classify w = .reti ↔ w = 0x1300) ∧
    (0x1301 ≤ w.toNat → w.toNat ≤ 0x137F → classify w = .nop)

/-- Words of every family, decoded: vectors E1 to E26 of 95_test_vectors.md 2.1. Where As and BW stand is log entry 13. -/
def Obligations.WordsOfEachFamily : Prop :=
  decodeWords 0x1005 0 = .rrc false (.register 5) ∧
  decodeWords 0x107F 0 = .rrc true (.autoincrement 15) ∧
  decodeWords 0x1080 0 = .swpb false (.register 0) ∧
  decodeWords 0x10C5 0 = .swpb true (.register 5) ∧
  decodeWords 0x1135 0 = .rra false (.autoincrement 5) ∧
  decodeWords 0x1196 0x0002 = .sxt false (.indexed 6 0x0002) ∧
  decodeWords 0x1230 0 = .push false (.autoincrement 0) ∧
  decodeWords 0x12B0 0 = .call false (.autoincrement 0) ∧
  decodeWords 0x12FF 0 = .call true (.autoincrement 15) ∧
  decodeWords 0x1300 0 = .reti ∧
  decodeWords 0x1301 0 = .nop 0x1301 ∧
  decodeWords 0x137F 0 = .nop 0x137F ∧
  decodeWords 0x1380 0 = .nop 0x1380 ∧
  decodeWords 0x1FFF 0 = .nop 0x1FFF ∧
  decodeWords 0x0000 0 = .nop 0x0000 ∧
  decodeWords 0x0FFF 0 = .nop 0x0FFF ∧
  decodeWords 0x2000 0 = .jnz 0 ∧
  decodeWords 0x23FF 0 = .jnz 0x3FF ∧
  decodeWords 0x2400 0 = .jz 0 ∧
  decodeWords 0x3000 0 = .jn 0 ∧
  decodeWords 0x3400 0 = .jge 0 ∧
  decodeWords 0x3FFF 0 = .jmp 0x3FF ∧
  decodeWords 0x4000 0 = .mov 0 ∧
  decodeWords 0x4FFF 0 = .mov 0xFFF ∧
  decodeWords 0xABCD 0 = .dadd 0xBCD ∧
  decodeWords 0xFFFF 0 = .and 0xFFF

/-- The signed word offset of a jump's field: -1 for 0, f - 1 for 1 to 0x200, f - 1025 from 0x201 on
(30_encoding.md R56). -/
def Obligations.JumpOffsetRange : Prop :=
  ∀ f : BitVec 10, (jumpOffset f).toInt =
    if f.toNat = 0 then -1 else if f.toNat ≤ 0x200 then (f.toNat : Int) - 1 else (f.toNat : Int) - 1025

/-! ### Fetch and step -/

/-- A step runs the decoded instruction: where the word at an even pc below the vector region, with its extension word
where it has one, is read, and the bytes decode to `i`, the step is exec of `i` at the same state, with nothing
around it (30_encoding.md R57, R58, R59). -/
def Obligations.StepRunsDecodedInstruction : Prop :=
  ∀ (s : State) (w x : Word) (i : Instr),
    isOdd s.pc = false → s.pc.toNat < 0xFFC0 → loadWord s s.pc = .ok w →
    (needsExtension w = true → loadWord s (s.pc + 2) = .ok x) →
    decode (wordBytes w ++ if needsExtension w then wordBytes x else []) = .ok (i, []) →
    step s = exec i s

/-- One step in the order of 30_encoding.md R57: an odd address is refused (log entry 12), an unreadable word gives
NoResult(fetch_unreadable) with the state unchanged, a word in the vector region is the next pc and nothing else
changes, and any other word, with its extension word where it has one, goes to the handler of its first matching
row. A failure of a third kind does not occur (log entry 22). -/
def Obligations.OneStepInOrder : Prop :=
  ∀ s : State,
    (isOdd s.pc = true → step s = .refused (.misaligned s)) ∧
    (isOdd s.pc = false → ∀ k, loadWord s s.pc = .error k → step s = .fault (.noResult .fetchUnreadable s)) ∧
    (isOdd s.pc = false → ∀ w, loadWord s s.pc = .ok w → 0xFFC0 ≤ s.pc.toNat → step s = .next { s with pc := w }) ∧
    (isOdd s.pc = false → ∀ w x, loadWord s s.pc = .ok w → s.pc.toNat < 0xFFC0 →
      (needsExtension w = true → loadWord s (s.pc + 2) = .ok x) →
      step s = exec (decodeWords w x) s ∧ (decodeWords w x).subtype = (firstRule w).subtype)

/-- A failing load of the extension word is fatal, and is not repaired (30_encoding.md R59, decision D11, log
entry 14). -/
def Obligations.ExtensionFailureIsFatal : Prop :=
  ∀ (s : State) (w : Word) (k : FailKind),
    isOdd s.pc = false → s.pc.toNat < 0xFFC0 → loadWord s s.pc = .ok w → needsExtension w = true →
    loadWord s (s.pc + 2) = .error k → step s = .fault (.fatal k s)

/-- The sentinel 0xABCD is a DADD-class word, so a location that holds it ends the run when it is fetched as an
instruction (20_memory.md R42, 42_double_operand_and_fallback.md R127). -/
def Obligations.FetchedSentinelEndsTheRun : Prop :=
  classify sentinel = .double .dadd ∧
  ∀ s : State, isOdd s.pc = false → s.pc.toNat < 0xFFC0 → loadWord s s.pc = .ok 0xABCD →
    fetch s = .ok (.instr (.dadd 0xBCD)) ∧ step s = .fault (.noResult .doubleOperand s)

/-! ### Jumps, double-operand words, RETI, NOP -/

/-- The eight jumps: their words, when each is taken, the target a + 2*offset with offset the sign-extension of
f - 1, the post-opcode address otherwise, and nothing else changed (41_jumps.md R100 to R108). -/
def Obligations.JumpsFollowTheTable : Prop :=
  ∀ (s : State) (f : BitVec 10),
    let go := fun b : Bool => (.next { s with pc :=
      if b then s.pc + 2 + 2 * (f - 1).signExtend 16 else s.pc + 2 } : StepOutcome)
    exec (.jnz f) s = go (!s.flags.z) ∧ exec (.jz f) s = go s.flags.z ∧
    exec (.jnc f) s = go (!s.flags.c) ∧ exec (.jc f) s = go s.flags.c ∧
    exec (.jn f) s = go s.flags.n ∧
    exec (.jge f) s = go (s.flags.n == s.flags.v) ∧ exec (.jl f) s = go (s.flags.n != s.flags.v) ∧
    exec (.jmp f) s = go true ∧
    ∀ w x : Word, w.extractLsb' 0 10 = f →
      (w &&& 0xFC00 = 0x2000 → decodeWords w x = .jnz f) ∧ (w &&& 0xFC00 = 0x2400 → decodeWords w x = .jz f) ∧
      (w &&& 0xFC00 = 0x2800 → decodeWords w x = .jnc f) ∧ (w &&& 0xFC00 = 0x2C00 → decodeWords w x = .jc f) ∧
      (w &&& 0xFC00 = 0x3000 → decodeWords w x = .jn f) ∧ (w &&& 0xFC00 = 0x3400 → decodeWords w x = .jge f) ∧
      (w &&& 0xFC00 = 0x3800 → decodeWords w x = .jl f) ∧ (w &&& 0xFC00 = 0x3C00 → decodeWords w x = .jmp f)

/-- With all flags false exactly JNZ, JNC, JGE and JMP are taken, with all flags true exactly JZ, JC, JN, JGE and JMP
(41_jumps.md R110). -/
def Obligations.JumpsTakenWithFlagsAlike : Prop :=
  (∀ j, taken ⟨false, false, false, false⟩ j = true ↔ j = .jnz ∨ j = .jnc ∨ j = .jge ∨ j = .jmp) ∧
  (∀ j, taken ⟨true, true, true, true⟩ j = true ↔ j = .jz ∨ j = .jc ∨ j = .jn ∨ j = .jge ∨ j = .jmp)

/-- The twelve double-operand opcodes: every word of the row is classified so, and the outcome is
NoResult(double_operand) with the state unchanged (42_double_operand_and_fallback.md R121 to R132). -/
def Obligations.DoubleOperandsEndTheRun : Prop :=
  ∀ (s : State) (w x : Word),
    let stop : StepOutcome := .fault (.noResult .doubleOperand s)
    let r := w.extractLsb' 0 12
    (w &&& 0xF000 = 0x4000 → decodeWords w x = .mov r) ∧ exec (.mov r) s = stop ∧
    (w &&& 0xF000 = 0x5000 → decodeWords w x = .add r) ∧ exec (.add r) s = stop ∧
    (w &&& 0xF000 = 0x6000 → decodeWords w x = .addc r) ∧ exec (.addc r) s = stop ∧
    (w &&& 0xF000 = 0x7000 → decodeWords w x = .subc r) ∧ exec (.subc r) s = stop ∧
    (w &&& 0xF000 = 0x8000 → decodeWords w x = .sub r) ∧ exec (.sub r) s = stop ∧
    (w &&& 0xF000 = 0x9000 → decodeWords w x = .cmp r) ∧ exec (.cmp r) s = stop ∧
    (w &&& 0xF000 = 0xA000 → decodeWords w x = .dadd r) ∧ exec (.dadd r) s = stop ∧
    (w &&& 0xF000 = 0xB000 → decodeWords w x = .bit r) ∧ exec (.bit r) s = stop ∧
    (w &&& 0xF000 = 0xC000 → decodeWords w x = .bic r) ∧ exec (.bic r) s = stop ∧
    (w &&& 0xF000 = 0xD000 → decodeWords w x = .bis r) ∧ exec (.bis r) s = stop ∧
    (w &&& 0xF000 = 0xE000 → decodeWords w x = .xor r) ∧ exec (.xor r) s = stop ∧
    (w &&& 0xF000 = 0xF000 → decodeWords w x = .and r) ∧ exec (.and r) s = stop

/-- RETI is the whole word 0x1300, and its outcome is RetiPlaceholder with the state unchanged
(40_single_operand.md R86, decision D28). -/
def Obligations.RetiIsAPlaceholder : Prop :=
  ∀ (s : State) (w x : Word), (decodeWords w x = .reti ↔ w = 0x1300) ∧ exec .reti s = .fault (.retiPlaceholder s)

/-- A word of R60's list executes as a NOP: the next address is A + 2 and nothing else changes
(42_double_operand_and_fallback.md R133, decision D16, log entry 18). -/
def Obligations.NopOnlyAdvances : Prop :=
  ∀ (s : State) (w x : Word), isFallbackWord w = true →
    decodeWords w x = .nop w ∧ exec (.nop w) s = .next { s with pc := s.pc + 2 }

/-- NoResult leaves the state unchanged in both of its forms: a step that ends so left the state it began in, and its
reason is that the opcode fetch failed or that a double-operand word was classified (60_exceptions.md R155). -/
def Obligations.NoResultLeavesTheState : Prop :=
  ∀ (s t : State) (r : NoResultReason), step s = .fault (.noResult r t) →
    t = s ∧
    (r = .fetchUnreadable → ∃ k, loadWord s s.pc = .error k) ∧
    (r = .doubleOperand → ∃ w d, loadWord s s.pc = .ok w ∧ classify w = .double d)

/-! ### The Memory Store -/

/-- The load's tests in their order: range, then the written-status of each byte, then the little-endian word
(20_memory.md R31, R32, R34; decisions D4 to D7, log entries 10 and 11). -/
def Obligations.LoadWordTestsInOrder : Prop :=
  ∀ (s : State) (a : Word),
    let inRange := s.cfg.memBase.toNat ≤ a.toNat ∧ a.toNat + 1 < s.cfg.memBase.toNat + s.cfg.memSize
    (¬ inRange → loadWord s a = .error .outOfRange) ∧
    (inRange → (s.byte a.toNat = none ∨ s.byte (a.toNat + 1) = none) → loadWord s a = .error .uninitialized) ∧
    (inRange → ∀ lo hi, s.byte a.toNat = some lo → s.byte (a.toNat + 1) = some hi →
      ∃ w, loadWord s a = .ok w ∧ w.toNat = lo.toNat + 256 * hi.toNat)

/-- A word store out of range reports it; in range it succeeds, the word is what the next load of that address
gives, the low byte stands at the lower address, and every other byte, every register, the flags and the trace are
as before (20_memory.md R33, R34, R40; decisions D7, D9). -/
def Obligations.StoreThenLoad : Prop :=
  ∀ (s : State) (a w : Word),
    (inRangeWord s.cfg a = false → storeWord s a w = .error .outOfRange) ∧
    (inRangeWord s.cfg a = true → ∃ t, storeWord s a w = .ok t ∧ loadWord t a = .ok w ∧
      (∃ lo hi, t.byte a.toNat = some lo ∧ t.byte (a.toNat + 1) = some hi ∧
        lo.toNat = w.toNat % 256 ∧ hi.toNat = w.toNat / 256) ∧
      (∀ i, ¬ InWord i a → t.byte i = s.byte i) ∧
      t = { s with mem := t.mem })

/-! ### Operands -/

/-- The operand load with its one repair (40_single_operand.md R75): an odd address is refused; a readable word is
loaded; an unwritten word in range is filled with 0xABCD, which is loaded; an address out of range gets MEM_BASE
where the mode omitted it, and the sentinel goes there, whatever the word was; a second failure is fatal, with
nothing changed. Decisions D8 and D12. -/
def Obligations.OperandLoadRepairsOnce : Prop :=
  ∀ (s : State) (ea : Word) (omitted : Bool),
    let moved := ea + s.cfg.memBase
    (isOdd ea = true → operandLoad s ea omitted = .error (endMisaligned s)) ∧
    (isOdd ea = false →
      (∀ v, loadWord s ea = .ok v → operandLoad s ea omitted = .ok ⟨v, ea, s⟩) ∧
      (loadWord s ea = .error .uninitialized →
        operandLoad s ea omitted = .ok ⟨0xABCD, ea, s.setWord ea 0xABCD⟩) ∧
      (loadWord s ea = .error .outOfRange →
        (omitted = false → operandLoad s ea omitted = .error (endFatal .outOfRange s)) ∧
        (omitted = true → isOdd moved = true → operandLoad s ea omitted = .error (endMisaligned s)) ∧
        (omitted = true → isOdd moved = false → inRangeWord s.cfg moved = false →
          operandLoad s ea omitted = .error (endFatal .outOfRange s)) ∧
        (omitted = true → isOdd moved = false → inRangeWord s.cfg moved = true →
          operandLoad s ea omitted = .ok ⟨0xABCD, moved, s.setWord moved 0xABCD⟩)))

/-- The second read of a location needs no repair: a load at the address where the first one ended gives the same
value and changes nothing (70_reset_and_hazards.md R176). -/
def Obligations.SecondReadIsPlain : Prop :=
  ∀ (s : State) (ea : Word) (omitted again : Bool) (l : Loaded), operandLoad s ea omitted = .ok l →
    loadWord l.state l.address = .ok l.value ∧
    operandLoad l.state l.address again = .ok ⟨l.value, l.address, l.state⟩

/-- When an operand can be loaded, the mutator of any subtype finds it in the operand's own register, the stored word
or the sentinel, with the dump of PUSH and CALL in indirect mode emitted (40_single_operand.md R71 to R75, R78). -/
def Obligations.ReadyOperandIsLoaded : Prop :=
  ∀ (s : State) (k : SingleOp) (o : Operand), OperandReady s o →
    operandPhase k s o =
      .ok (if k = .push ∨ k = .call then withDump s o (operandState s o) else operandState s o)

/-- When a memory operand cannot be loaded, the step stops with the state untouched, for every mutator: refused at an
odd address (log entry 12), else fatal with OutOfRange, the parameters being well-formed (40_single_operand.md R75;
20_memory.md R37; decision D12). -/
def Obligations.UnreadyOperandStops : Prop :=
  ∀ (M : Mut) (k : SingleOp) (bw : Bool) (o : Operand) (s : State) (ea : Word) (omitted : Bool),
    s.cfg.wf → effectiveAddress s o = some (ea, omitted) →
    (isOdd ea = true → resolve M k bw o s = .refused (.misaligned s)) ∧
    (isOdd ea = false → ¬ LoadReady s ea omitted → resolve M k bw o s = .fault (.fatal .outOfRange s))

/-- Register mode, for every Mut: the mutator is invoked directly at the state as it stands, and the result is the
address after the opcode word, except for CALL (40_single_operand.md R71). -/
def Obligations.RegisterMode : Prop :=
  ∀ (M : Mut) (k : SingleOp) (bw : Bool) (n : Reg) (s : State),
    (∀ e, M k n (singleWord k bw (.register n)) (s.pc + 2) s = .error e →
      resolve M k bw (.register n) s = e.outcome) ∧
    (∀ t, M k n (singleWord k bw (.register n)) (s.pc + 2) s = .ok t →
      resolve M k bw (.register n) s = .next (t.setPc (if k = .call then t.reg 0 else s.pc + 2)))

/-- Indexed mode, for every Mut: the address is MEM_BASE + x[n] + the extension word, without MEM_BASE where that sum
is at or above 0xFFC0; a stop of the operand load ends the step; else the operand replaces x[n] and the mutator runs; the
result is the address after the extension word, except for CALL (40_single_operand.md R72; decisions D10 and D13). -/
def Obligations.IndexedMode : Prop :=
  ∀ (M : Mut) (k : SingleOp) (bw : Bool) (n : Reg) (x : Word) (s : State),
    let sum := s.cfg.memBase + s.reg n + x
    let dropped := decide (0xFFC0 ≤ sum.toNat)
    let load := operandLoad s (if dropped then s.reg n + x else sum) dropped
    (∀ e, load = .error e → resolve M k bw (.indexed n x) s = e.outcome) ∧
    ∀ l, load = .ok l →
      (∀ e, M k n (singleWord k bw (.indexed n x)) (s.pc + 4) (l.state.setReg n l.value) = .error e →
        resolve M k bw (.indexed n x) s = e.outcome) ∧
      (∀ t, M k n (singleWord k bw (.indexed n x)) (s.pc + 4) (l.state.setReg n l.value) = .ok t →
        resolve M k bw (.indexed n x) s = .next (t.setPc (if k = .call then t.reg 0 else s.pc + 4)))

/-- Indirect-register mode, for every Mut: the address is x[n]; a stop of the operand load ends the step; else the operand
replaces x[n], PUSH and CALL emit a dump of 32 words at the final address before the mutator, and the result is the
address after the opcode word, except for CALL (40_single_operand.md R73, R77, R78). That the dump comes after the load
and carries its final address is decision D15, and that it stands in State.trace is log entry 9. -/
def Obligations.IndirectMode : Prop :=
  ∀ (M : Mut) (k : SingleOp) (bw : Bool) (n : Reg) (s : State),
    (∀ e, operandLoad s (s.reg n) true = .error e → resolve M k bw (.indirect n) s = e.outcome) ∧
    ∀ l, operandLoad s (s.reg n) true = .ok l →
      let p := if k = .push ∨ k = .call then
          { l.state.setReg n l.value with trace := l.state.trace ++ [.dump l.address 32] }
        else l.state.setReg n l.value
      (∀ e, M k n (singleWord k bw (.indirect n)) (s.pc + 2) p = .error e →
        resolve M k bw (.indirect n) s = e.outcome) ∧
      (∀ t, M k n (singleWord k bw (.indirect n)) (s.pc + 2) p = .ok t →
        resolve M k bw (.indirect n) s = .next (t.setPc (if k = .call then t.reg 0 else s.pc + 2)))

/-- Indirect-autoincrement mode, for every Mut: as indirect mode without the dump, and after the mutator the register as
the mutator left it is incremented by 1 for a byte operation and else by 2, whether or not the load was repaired; a stop
of the load or of the mutator ends the step before that (40_single_operand.md R74). -/
def Obligations.AutoincrementMode : Prop :=
  ∀ (M : Mut) (k : SingleOp) (bw : Bool) (n : Reg) (s : State),
    (∀ e, operandLoad s (s.reg n) true = .error e → resolve M k bw (.autoincrement n) s = e.outcome) ∧
    ∀ l, operandLoad s (s.reg n) true = .ok l →
      (∀ e, M k n (singleWord k bw (.autoincrement n)) (s.pc + 2) (l.state.setReg n l.value) = .error e →
        resolve M k bw (.autoincrement n) s = e.outcome) ∧
      (∀ t, M k n (singleWord k bw (.autoincrement n)) (s.pc + 2) (l.state.setReg n l.value) = .ok t →
        let u := t.setReg n (t.reg n + if bw then 1 else 2)
        resolve M k bw (.autoincrement n) s = .next (u.setPc (if k = .call then u.reg 0 else s.pc + 2)))

/-- The result of the resolver, for every Mut: CALL returns x[0] as it stands at the end of the step, in every mode; the
others return the linear successor (40_single_operand.md R77; decisions D13 and D14). -/
def Obligations.CallReturnsRegisterZero : Prop :=
  ∀ (M : Mut) (k : SingleOp) (bw : Bool) (o : Operand) (s t : State), resolve M k bw o s = .next t →
    (k = .call → t.pc = t.reg 0) ∧ (k ≠ .call → t.pc = nextAddress s o)

/-- A stop inside a mutator ends the step with the state the mutator reached: the operand stays loaded in its register,
a repair's sentinel stays in memory, and no increment happens (60_exceptions.md R154; 40_single_operand.md R76;
decisions D24 and D30). -/
def Obligations.MutatorStopIsNotRolledBack : Prop :=
  ∀ (M : Mut) (k : SingleOp) (bw : Bool) (o : Operand) (s t : State) (kind : FailKind), OperandReady s o →
    M k o.reg (singleWord k bw o) (nextAddress s o)
        (if k = .push ∨ k = .call then withDump s o (operandState s o) else operandState s o) =
      .error (.fault (.fatal kind t)) →
    resolve M k bw o s = .fault (.fatal kind t)

/-! ### The instructions, with every Mut and with the reference mutators (log entry 8) -/

/-- RRC, SWPB, RRA, SXT, PUSH and CALL under the Mut of the session, whichever it is (00_scope.md R6, 40_single_operand.md
R70, R76, R77): on every operand that can be loaded, the mutator of that Mut is invoked with the operand's register, the
opcode word and the linear successor, at the state with the operand loaded and the dump emitted; where it goes on the step
does, with the increment of mode 3 and the result, and where it stops the step ends so. That State names the Mut is log
entry 8, what the unknown ones are is log entry 31. -/
def Obligations.SingleOperandsRunUnderEveryMut : Prop :=
  ∀ (s : State) (k : SingleOp) (bw : Bool) (o : Operand), OperandReady s o →
    let p := if k = .push ∨ k = .call then withDump s o (operandState s o) else operandState s o
    let run := mutOf s.cfg k o.reg (singleWord k bw o) (nextAddress s o) p
    (∀ e, run = .error e → exec (.ofSingle bw o k) s = e.outcome) ∧
    (∀ u, run = .ok u →
      let t := incremented bw o u
      exec (.ofSingle bw o k) s = .next (t.setPc (if k = .call then t.reg 0 else nextAddress s o)))

/-- PUSH under the Mut of the session, whichever it is, where it goes on (40_single_operand.md R76 e, R84): from the state
with the operand loaded and the dump emitted, the stack pointer moves down by an amount that is not 0, and the operand as it
was at the call stands where x[1] then points, as a word or as its low byte; the increment of mode 3 comes after, and the
result is the linear successor. The amount, the width and the flags are the mutator's (log entries 31 and 32). -/
def Obligations.PushUnderEveryMut : Prop :=
  ∀ (s t : State) (bw : Bool) (o : Operand), OperandReady s o → exec (.push bw o) s = .next t →
    let p := withDump s o (operandState s o)
    ∃ u, StackMoved p u ∧ OnStack u (p.reg o.reg) ∧ t = (incremented bw o u).setPc (nextAddress s o)

/-- CALL under the Mut of the session, whichever it is, where it goes on (40_single_operand.md R76 d, R77, R85): from the
state with the operand loaded and the dump emitted, the stack pointer moves down by an amount that is not 0, a return address
stands, as a word, where x[1] then points, and x[0] is the operand as it was at the call; the increment of mode 3 comes
after, and the result is x[0]. The amount and the return address are the mutator's (log entries 31 and 32). -/
def Obligations.CallUnderEveryMut : Prop :=
  ∀ (s t : State) (bw : Bool) (o : Operand), OperandReady s o → exec (.call bw o) s = .next t →
    let p := withDump s o (operandState s o)
    ∃ u ret, StackMoved p u ∧ loadWord u (u.reg 1) = .ok ret ∧ u.reg 0 = p.reg o.reg ∧
      t = (incremented bw o u).setPc ((incremented bw o u).reg 0)

/-- RRC completes on every operand that can be loaded: the register gets half the operand with the old carry on top,
in a byte form of its low byte, zero-extended, plus the increment of mode 3; C is the bit shifted out, N and Z are of
the result, V is clear; memory holds at most the sentinel of a repair, and nothing else changes
(40_single_operand.md R80, 43_reference_execution_unit.md R140, R141).
This is of a session whose Mut is the reference one, a body that the spec marks as general knowledge (log entry 8);
SingleOperandsRunUnderEveryMut says where it completes under any other. -/
def Obligations.RrcResult : Prop :=
  ∀ (s : State) (bw : Bool) (o : Operand), s.cfg.mutators = .reference → OperandReady s o →
    let p := operandState s o
    let v := (p.reg o.reg).toNat
    ∃ r : Word,
      (bw = false → r.toNat = v / 2 + if s.flags.c then 0x8000 else 0) ∧
      (bw = true → r.toNat = v % 256 / 2 + if s.flags.c then 0x80 else 0) ∧
      exec (.rrc bw o) s = .next { p.setReg o.reg (r + increment bw o) with
        flags := { z := decide (r.toNat = 0), c := decide (v % 2 = 1),
                   n := decide ((if bw then 0x80 else 0x8000) ≤ r.toNat), v := false }
        pc := nextAddress s o }

/-- SWPB completes on every operand that can be loaded: the register gets the operand's bytes exchanged, for either
value of BW, plus the increment of mode 3; no flag changes; memory holds at most the sentinel of a repair, and nothing
else changes (40_single_operand.md R81, 43_reference_execution_unit.md R142).
This is of a session whose Mut is the reference one, a body that the spec marks as general knowledge (log entry 8);
SingleOperandsRunUnderEveryMut says where it completes under any other. -/
def Obligations.SwpbResult : Prop :=
  ∀ (s : State) (bw : Bool) (o : Operand), s.cfg.mutators = .reference → OperandReady s o →
    let p := operandState s o
    let v := (p.reg o.reg).toNat
    ∃ r : Word, r.toNat = v % 256 * 256 + v / 256 ∧
      exec (.swpb bw o) s = .next { p.setReg o.reg (r + increment bw o) with pc := nextAddress s o }

/-- RRA completes on every operand that can be loaded: the register gets half the operand as a signed number, rounded
down, in a byte form of its low byte, zero-extended, plus the increment of mode 3; C is the bit shifted out, N and Z are
of the result, V is clear; memory holds at most the sentinel of a repair, and nothing else changes
(40_single_operand.md R82, 43_reference_execution_unit.md R140, R143).
This is of a session whose Mut is the reference one, a body that the spec marks as general knowledge (log entry 8);
SingleOperandsRunUnderEveryMut says where it completes under any other. -/
def Obligations.RraResult : Prop :=
  ∀ (s : State) (bw : Bool) (o : Operand), s.cfg.mutators = .reference → OperandReady s o →
    let p := operandState s o
    let v := p.reg o.reg
    ∃ r : Word,
      (bw = false → r.toInt = v.toInt / 2) ∧
      (bw = true → r.toNat = v.toNat % 256 / 2 + v.toNat % 256 / 128 * 128) ∧
      exec (.rra bw o) s = .next { p.setReg o.reg (r + increment bw o) with
        flags := { z := decide (r.toNat = 0), c := decide (v.toNat % 2 = 1),
                   n := decide ((if bw then 0x80 else 0x8000) ≤ r.toNat), v := false }
        pc := nextAddress s o }

/-- SXT completes on every operand that can be loaded: the register gets the low byte as a signed number, for either
value of BW, plus the increment of mode 3; N and Z are of the result, C is the negation of Z, V is clear; memory holds
at most the sentinel of a repair, and nothing else changes (40_single_operand.md R83,
43_reference_execution_unit.md R144).
This is of a session whose Mut is the reference one, a body that the spec marks as general knowledge (log entry 8);
SingleOperandsRunUnderEveryMut says where it completes under any other. -/
def Obligations.SxtResult : Prop :=
  ∀ (s : State) (bw : Bool) (o : Operand), s.cfg.mutators = .reference → OperandReady s o →
    let p := operandState s o
    let v := (p.reg o.reg).toNat % 256
    ∃ r : Word, r.toInt = (if v < 128 then (v : Int) else (v : Int) - 256) ∧
      exec (.sxt bw o) s = .next { p.setReg o.reg (r + increment bw o) with
        flags := { z := decide (v = 0), c := decide (v ≠ 0), n := decide (128 ≤ v), v := false }
        pc := nextAddress s o }

/-- PUSH completes when its operand can be loaded and its stack slot takes the store: x[1] moves down by 2, read after
the operand was loaded; the operand as it was before that move goes to the slot, as a word at an even slot in range or,
in a byte form, as its low byte; then the increment of mode 3; indirect mode emits the dump; no flag changes
(40_single_operand.md R84, 43_reference_execution_unit.md R145).
This is of a session whose Mut is the reference one, a body that the spec marks as general knowledge (log entry 8);
SingleOperandsRunUnderEveryMut says where it completes under any other. -/
def Obligations.PushResult : Prop :=
  ∀ (s : State) (bw : Bool) (o : Operand), s.cfg.mutators = .reference → OperandReady s o →
    let p := withDump s o (operandState s o)
    let slot := p.reg 1 - 2
    (bw = false → isOdd slot = false → inRangeWord s.cfg slot = true →
      exec (.push bw o) s =
        .next ((incremented bw o ((p.setReg 1 slot).setWord slot (p.reg o.reg))).setPc (nextAddress s o))) ∧
    (bw = true → inRangeByte s.cfg slot.toNat = true →
      ∃ b : Byte, b.toNat = (p.reg o.reg).toNat % 256 ∧
        exec (.push bw o) s =
          .next ((incremented bw o ((p.setReg 1 slot).setByte slot.toNat b)).setPc (nextAddress s o)))

/-- CALL completes when its operand can be loaded and its stack slot, even and in range, takes the return address: x[1]
moves down by 2, the address after the whole instruction goes to the slot, x[0] gets the operand as it was before that
move, then the increment of mode 3 happens, and the next address is x[0]; indirect mode emits the dump; no flag changes
(40_single_operand.md R85, R77; 43_reference_execution_unit.md R146).
This is of a session whose Mut is the reference one, a body that the spec marks as general knowledge (log entry 8);
SingleOperandsRunUnderEveryMut says where it completes under any other. -/
def Obligations.CallResult : Prop :=
  ∀ (s : State) (bw : Bool) (o : Operand), s.cfg.mutators = .reference → OperandReady s o →
    let p := withDump s o (operandState s o)
    let slot := p.reg 1 - 2
    let u := incremented bw o (((p.setReg 1 slot).setWord slot (nextAddress s o)).setReg 0 (p.reg o.reg))
    isOdd slot = false → inRangeWord s.cfg slot = true → exec (.call bw o) s = .next (u.setPc (u.reg 0))

/-- Where PUSH and CALL stop on the stack under the reference mutators: an odd slot of a word is refused, a slot out of
range is fatal, and either way x[1] has moved and nothing is stored, with x[0] not yet written
(43_reference_execution_unit.md R145, R146; 60_exceptions.md R154; log entries 8, 12 and 23). -/
def Obligations.StackSlotStops : Prop :=
  ∀ (s : State) (bw : Bool) (o : Operand), s.cfg.mutators = .reference → OperandReady s o →
    let p := withDump s o (operandState s o)
    let slot := p.reg 1 - 2
    (isOdd slot = true →
      exec (.push false o) s = .refused (.misaligned (p.setReg 1 slot)) ∧
      exec (.call bw o) s = .refused (.misaligned (p.setReg 1 slot))) ∧
    (isOdd slot = false → inRangeWord s.cfg slot = false →
      exec (.push false o) s = .fault (.fatal .outOfRange (p.setReg 1 slot)) ∧
      exec (.call bw o) s = .fault (.fatal .outOfRange (p.setReg 1 slot))) ∧
    (inRangeByte s.cfg slot.toNat = false →
      exec (.push true o) s = .fault (.fatal .outOfRange (p.setReg 1 slot)))

/-- The reference mutators meet the contract of `Mut` (43_reference_execution_unit.md R140, last sentence;
40_single_operand.md R76). The contract is stated as log entries 30 and 32 say. -/
def Obligations.ReferenceMutatorsMeetContract : Prop := MutContract refMut

/-- Whatever Mut a session names, the reference one or an unknown one, meets the contract, the last of R6's constraints
on the OPEN parameters (00_scope.md R6, 40_single_operand.md R76). The contract is stated as log entries 30 and 32 say, and
the unknown mutators are built as log entry 31 says. -/
def Obligations.EveryMutOfASessionMeetsContract : Prop := ∀ c : Config, MutContract (mutOf c)

/-! ### Frames -/

/-- What RRC, SWPB, RRA and SXT leave unchanged under the reference mutators: every register but the operand's, the
parameters, the trace, for SWPB the flags, and every byte of memory but the two that a repair of the operand load
stores, which are the word at `repairSite` (40_single_operand.md R79, R80 to R83; 70_reset_and_hazards.md R175; log entry 8). -/
def Obligations.RotateFrame : Prop :=
  ∀ (s t : State) (bw : Bool) (o : Operand) (i : Instr), s.cfg.mutators = .reference →
    i = .rrc bw o ∨ i = .swpb bw o ∨ i = .rra bw o ∨ i = .sxt bw o → exec i s = .next t →
    (∀ m, m ≠ o.reg → t.reg m = s.reg m) ∧ t.cfg = s.cfg ∧ t.trace = s.trace ∧
    (i = .swpb bw o → t.flags = s.flags) ∧
    (repairSite s o = none → ∀ a, t.byte a = s.byte a) ∧
    (∀ site, repairSite s o = some site → ∀ a, ¬ InWord a site → t.byte a = s.byte a)

/-- What PUSH leaves unchanged under the reference mutators: every register but the operand's and x[1], the flags, the
parameters, and every byte but those of a repair and those of the stack slot, two for a word and one for a byte, the
slot being computed at the state the mutator is invoked in (40_single_operand.md R84, 43_reference_execution_unit.md R145; log entry 8). -/
def Obligations.PushFrame : Prop :=
  ∀ (s t : State) (bw : Bool) (o : Operand), s.cfg.mutators = .reference → exec (.push bw o) s = .next t →
    (∀ m, m ≠ o.reg → m ≠ 1 → t.reg m = s.reg m) ∧ t.flags = s.flags ∧ t.cfg = s.cfg ∧
    ∀ p, operandPhase .push s o = .ok p → ∀ a,
      (∀ site, repairSite s o = some site → ¬ InWord a site) →
      a ≠ (stackSlot p).toNat → (bw = false → a ≠ (stackSlot p).toNat + 1) → t.byte a = s.byte a

/-- What CALL leaves unchanged under the reference mutators: every register but the operand's, x[1] and x[0], the flags,
the parameters, and every byte but those of a repair and the two of the stack slot, computed at the state the mutator is
invoked in (40_single_operand.md R85, 43_reference_execution_unit.md R146; log entry 8). -/
def Obligations.CallFrame : Prop :=
  ∀ (s t : State) (bw : Bool) (o : Operand), s.cfg.mutators = .reference → exec (.call bw o) s = .next t →
    (∀ m, m ≠ o.reg → m ≠ 1 → m ≠ 0 → t.reg m = s.reg m) ∧ t.flags = s.flags ∧ t.cfg = s.cfg ∧
    ∀ p, operandPhase .call s o = .ok p → ∀ a,
      (∀ site, repairSite s o = some site → ¬ InWord a site) → ¬ InWord a (stackSlot p) → t.byte a = s.byte a

/-- A step that fetches no single-operand instruction changes the pc at most: the vector shortcut, the eight jumps and
the NOP leave every register, flag, byte and event (10_state.md R13; 41_jumps.md R109). -/
def Obligations.OthersChangeOnlyThePc : Prop :=
  ∀ s t : State, step s = .next t → (∀ bw o k, ¬ Fetches s (.ofSingle bw o k)) → t = s.setPc t.pc

/-! ### Whole-machine rules -/

/-- The launch state of the model meets the invariant. It is the model's choice (log entries 3 to 7); the spec gives
the unwritten memory only (10_state.md R22). -/
def Obligations.ResetMeetsInvariant : Prop := Inv State.reset

/-- From the launch state, with nothing placed, the first step reads unwritten memory and ends the run; the address is the
model's choice (log entries 4 and 25; 10_state.md R21, R22). -/
def Obligations.EmptyLaunchEndsAtOnce : Prop :=
  (∀ a, State.reset.byte a = none) ∧ step State.reset = .fault (.noResult .fetchUnreadable State.reset)

/-- Every step keeps the invariant, whatever the Mut of the session is: the parameters stay well-formed, memory keeps its
canonical form, and nothing outside the window is ever written (10_state.md R20; 00_scope.md R6). -/
def Obligations.StepKeepsInvariant : Prop :=
  ∀ s t : State, Inv s → step s = .next t → Inv t

/-- A step that stops leaves a state that meets the invariant too, after any partial effect and whatever the Mut of the
session is (60_exceptions.md R154; 10_state.md R20). -/
def Obligations.StopsLeaveInvariant : Prop :=
  ∀ s t : State, Inv s → leftState (step s) = some t → Inv t

/-- The resolver keeps the invariant for EVERY Mut that meets the contract as the model states it, whether the step goes on
or stops. The contract is log entry 30's choice, and that the mutator itself keeps the invariant is a part of it; what this
says is that the operand load, its repair, the increment and the result keep it too (40_single_operand.md R70 to R78;
10_state.md R20). -/
def Obligations.ResolverKeepsInvariantForEveryMut : Prop :=
  ∀ (M : Mut) (k : SingleOp) (bw : Bool) (o : Operand) (s t : State), MutContract M → Inv s →
    leftState (resolve M k bw o s) = some t → Inv t

/-- MEM_BASE, MEM_SIZE and Mut are parameters: no step changes them, whatever the Mut is (00_scope.md R6; 10_state.md
R10). -/
def Obligations.StepKeepsParameters : Prop :=
  ∀ s t : State, step s = .next t → t.cfg = s.cfg

/-- Only a single-operand instruction changes a flag, under every Mut, and with the reference mutators only RRC, RRA and
SXT do (10_state.md R17; 43_reference_execution_unit.md R140, log entry 8). -/
def Obligations.FlagWriters : Prop :=
  ∀ s t : State, step s = .next t → t.flags ≠ s.flags →
    ∃ bw o k, Fetches s (.ofSingle bw o k) ∧ (s.cfg.mutators = .reference → k = .rrc ∨ k = .rra ∨ k = .sxt)

/-- Register 0 is not the running program counter: a step changes x[0] only by a single-operand instruction, and with the
reference mutators only by a CALL or as the operand's own register (70_reset_and_hazards.md R180; 10_state.md R14,
decision D20; log entries 8 and 20). -/
def Obligations.RegisterZeroWriters : Prop :=
  ∀ s t : State, step s = .next t → t.reg 0 ≠ s.reg 0 →
    ∃ bw o k, Fetches s (.ofSingle bw o k) ∧ (s.cfg.mutators = .reference → k = .call ∨ o.reg = 0)

/-- Memory changes only by a single-operand instruction, under every Mut: jumps, NOP and the vector shortcut store
nothing. With the reference mutators RRC, SWPB, RRA and SXT store nothing unless their operand load is repaired
(70_reset_and_hazards.md R175, R176; log entry 8). -/
def Obligations.MemoryWriters : Prop :=
  ∀ s t : State, step s = .next t → t.mem ≠ s.mem →
    ∃ bw o k, Fetches s (.ofSingle bw o k) ∧
      (s.cfg.mutators = .reference → k = .push ∨ k = .call ∨ (repairSite s o).isSome = true)

/-- A trace event comes from PUSH and CALL in indirect mode only, one per step, of 32 words (40_single_operand.md R78,
decision D15, log entry 9). -/
def Obligations.TraceWriters : Prop :=
  ∀ s t : State, step s = .next t → t.trace ≠ s.trace →
    ∃ bw n a, (Fetches s (.push bw (.indirect n)) ∨ Fetches s (.call bw (.indirect n))) ∧
      t.trace = s.trace ++ [.dump a 32]

/-- An even pc stays even, but after a CALL and after the vector shortcut (10_state.md R16). -/
def Obligations.PcStaysEven : Prop :=
  ∀ s t : State, step s = .next t → s.pc.toNat < 0xFFC0 → (∀ bw o, ¬ Fetches s (.call bw o)) → isOdd t.pc = false

/-- A step fails or has no meaning only through a single-operand word or an odd fetch address: a jump, a NOP, RETI, a
double-operand word and a vector word cannot end in Fatal or Refused (41_jumps.md R109; 60_exceptions.md R157). That an
opcode fetch never ends in Fatal(Other), which R157 line 2 allows, is log entry 22: the Memory Store of the model reports the
two kinds of 20_memory.md R39 only. -/
def Obligations.OnlySingleOperandsFail : Prop :=
  ∀ s : State, ¬ SafeStep s →
    isOdd s.pc = true ∨ ∃ w k, loadWord s s.pc = .ok w ∧ s.pc.toNat < 0xFFC0 ∧ classify w = .single k

/-- No step ends in a failure of a third kind (log entry 22), and the one refusal is that of a word access at an odd
address, log entry 12 (20_memory.md R37, R39; 60_exceptions.md R150). -/
def Obligations.StopsAreTheSpecs : Prop :=
  ∀ s : State, (∀ t, step s ≠ .fault (.fatal .other t)) ∧ (∀ r, step s = .refused r → ∃ t, r = .misaligned t)

/-- The ends of a run (70_reset_and_hazards.md R183, decision D23). A step ends a run normally exactly when its word cannot
be fetched from an even address or is, below the vector region, RETI or a double-operand word; the state is then as the
step before left it. It fails exactly when it ends in Fatal with one of the two kinds of failure, and has no meaning
exactly when it ends in Refused(misaligned). R183 says Fatal(kind) of any kind: that there are two only, and that every
failing fetch is a normal end, is log entry 22 with 20_memory.md R39. The end of a run is the outcome of its first step that has no next state, and
at a normal end the state is the one that the steps before it reached. The host's outcomes are log entry 1. -/
def Obligations.RunEndsAtFirstStop : Prop :=
  (∀ s : State, verdict (step s) = .normalEnd ↔
    isOdd s.pc = false ∧
      ((∃ k, loadWord s s.pc = .error k) ∨
        (s.pc.toNat < 0xFFC0 ∧ ∃ w, loadWord s s.pc = .ok w ∧ (w = 0x1300 ∨ 0x4000 ≤ w.toNat)))) ∧
  (∀ s : State, verdict (step s) = .normalEnd → leftState (step s) = some s) ∧
  (∀ s : State, verdict (step s) = .failed ↔
    ∃ t, step s = .fault (.fatal .uninitialized t) ∨ step s = .fault (.fatal .outOfRange t)) ∧
  (∀ s : State, verdict (step s) = .noMeaning ↔ ∃ t, step s = .refused (.misaligned t)) ∧
  (∀ (k : Nat) (s : State) (o : StepOutcome), Sys2Proof.core.run k s = o → verdict o ≠ .goesOn →
    ∃ j u, j < k ∧ Sys2Proof.core.run j s = .next u ∧ step u = o ∧
      (verdict o = .normalEnd → leftState o = some u))
end

