-- ==== Sys2Proof/Laws/State.lean ====
section
/-! SUPPORT. One lemma per field and update of State, and the register accessors' laws, so that no later proof unfolds
a record update. -/

namespace Sys2Proof.Machine

@[simp] theorem State.setReg_cfg (s : State) (n : Reg) (v : Word) : (s.setReg n v).cfg = s.cfg := rfl
@[simp] theorem State.setReg_regs (s : State) (n : Reg) (v : Word) : (s.setReg n v).regs = s.regs.set n v := rfl
@[simp] theorem State.setReg_flags (s : State) (n : Reg) (v : Word) : (s.setReg n v).flags = s.flags := rfl
@[simp] theorem State.setReg_mem (s : State) (n : Reg) (v : Word) : (s.setReg n v).mem = s.mem := rfl
@[simp] theorem State.setReg_pc (s : State) (n : Reg) (v : Word) : (s.setReg n v).pc = s.pc := rfl
@[simp] theorem State.setReg_trace (s : State) (n : Reg) (v : Word) : (s.setReg n v).trace = s.trace := rfl

@[simp] theorem State.setFlags_cfg (s : State) (f : Flags) : (s.setFlags f).cfg = s.cfg := rfl
@[simp] theorem State.setFlags_regs (s : State) (f : Flags) : (s.setFlags f).regs = s.regs := rfl
@[simp] theorem State.setFlags_flags (s : State) (f : Flags) : (s.setFlags f).flags = f := rfl
@[simp] theorem State.setFlags_mem (s : State) (f : Flags) : (s.setFlags f).mem = s.mem := rfl
@[simp] theorem State.setFlags_pc (s : State) (f : Flags) : (s.setFlags f).pc = s.pc := rfl
@[simp] theorem State.setFlags_trace (s : State) (f : Flags) : (s.setFlags f).trace = s.trace := rfl

@[simp] theorem State.setPc_cfg (s : State) (a : Word) : (s.setPc a).cfg = s.cfg := rfl
@[simp] theorem State.setPc_regs (s : State) (a : Word) : (s.setPc a).regs = s.regs := rfl
@[simp] theorem State.setPc_flags (s : State) (a : Word) : (s.setPc a).flags = s.flags := rfl
@[simp] theorem State.setPc_mem (s : State) (a : Word) : (s.setPc a).mem = s.mem := rfl
@[simp] theorem State.setPc_pc (s : State) (a : Word) : (s.setPc a).pc = a := rfl
@[simp] theorem State.setPc_trace (s : State) (a : Word) : (s.setPc a).trace = s.trace := rfl

@[simp] theorem State.setByte_cfg (s : State) (a : Nat) (b : Byte) : (s.setByte a b).cfg = s.cfg := rfl
@[simp] theorem State.setByte_regs (s : State) (a : Nat) (b : Byte) : (s.setByte a b).regs = s.regs := rfl
@[simp] theorem State.setByte_flags (s : State) (a : Nat) (b : Byte) : (s.setByte a b).flags = s.flags := rfl
@[simp] theorem State.setByte_mem (s : State) (a : Nat) (b : Byte) : (s.setByte a b).mem = Memory.write s.mem a b := rfl
@[simp] theorem State.setByte_pc (s : State) (a : Nat) (b : Byte) : (s.setByte a b).pc = s.pc := rfl
@[simp] theorem State.setByte_trace (s : State) (a : Nat) (b : Byte) : (s.setByte a b).trace = s.trace := rfl

@[simp] theorem State.setWord_cfg (s : State) (a w : Word) : (s.setWord a w).cfg = s.cfg := rfl
@[simp] theorem State.setWord_regs (s : State) (a w : Word) : (s.setWord a w).regs = s.regs := rfl
@[simp] theorem State.setWord_flags (s : State) (a w : Word) : (s.setWord a w).flags = s.flags := rfl
@[simp] theorem State.setWord_mem (s : State) (a w : Word) : (s.setWord a w).mem = Memory.write (Memory.write s.mem a.toNat (loByte w)) (a.toNat + 1) (hiByte w) := rfl
@[simp] theorem State.setWord_pc (s : State) (a w : Word) : (s.setWord a w).pc = s.pc := rfl
@[simp] theorem State.setWord_trace (s : State) (a w : Word) : (s.setWord a w).trace = s.trace := rfl

@[simp] theorem State.emitDump_cfg (s : State) (a : Word) : (s.emitDump a).cfg = s.cfg := rfl
@[simp] theorem State.emitDump_regs (s : State) (a : Word) : (s.emitDump a).regs = s.regs := rfl
@[simp] theorem State.emitDump_flags (s : State) (a : Word) : (s.emitDump a).flags = s.flags := rfl
@[simp] theorem State.emitDump_mem (s : State) (a : Word) : (s.emitDump a).mem = s.mem := rfl
@[simp] theorem State.emitDump_pc (s : State) (a : Word) : (s.emitDump a).pc = s.pc := rfl
@[simp] theorem State.emitDump_trace (s : State) (a : Word) : (s.emitDump a).trace = s.trace ++ [TraceEvent.dump a dumpWords] := rfl

/-! ### The register of an operand -/

@[simp] theorem Operand.reg_register (n : Reg) : (Operand.register n).reg = n := rfl
@[simp] theorem Operand.reg_indexed (n : Reg) (x : Word) : (Operand.indexed n x).reg = n := rfl
@[simp] theorem Operand.reg_indirect (n : Reg) : (Operand.indirect n).reg = n := rfl
@[simp] theorem Operand.reg_autoincrement (n : Reg) : (Operand.autoincrement n).reg = n := rfl

/-! ### Registers -/

@[simp] theorem State.reg_setReg_same (s : State) (n : Reg) (v : Word) : (s.setReg n v).reg n = v := by
  simp [State.reg, State.setReg]

theorem State.reg_setReg_ne (s : State) {n m : Reg} (v : Word) (h : m ≠ n) : (s.setReg n v).reg m = s.reg m := by
  have hv : n.val ≠ m.val := fun e => h (Fin.ext e.symm)
  simp [State.reg, State.setReg, hv]

theorem State.reg_setReg (s : State) (n m : Reg) (v : Word) :
    (s.setReg n v).reg m = if m = n then v else s.reg m := by
  split
  · next h => rw [h, State.reg_setReg_same]
  · next h => exact State.reg_setReg_ne s v h

@[simp] theorem State.setReg_setReg (s : State) (n : Reg) (v w : Word) : (s.setReg n v).setReg n w = s.setReg n w := by
  simp [State.setReg]

@[simp] theorem State.setReg_reg (s : State) (n : Reg) : s.setReg n (s.reg n) = s := by
  simp [State.setReg, State.reg]

@[simp] theorem State.reg_setFlags (s : State) (f : Flags) (m : Reg) : (s.setFlags f).reg m = s.reg m := rfl
@[simp] theorem State.reg_setPc (s : State) (a : Word) (m : Reg) : (s.setPc a).reg m = s.reg m := rfl
@[simp] theorem State.reg_setByte (s : State) (a : Nat) (b : Byte) (m : Reg) : (s.setByte a b).reg m = s.reg m := rfl
@[simp] theorem State.reg_setWord (s : State) (a w : Word) (m : Reg) : (s.setWord a w).reg m = s.reg m := rfl
@[simp] theorem State.reg_emitDump (s : State) (a : Word) (m : Reg) : (s.emitDump a).reg m = s.reg m := rfl

/-! ### Bytes -/

@[simp] theorem State.byte_setReg (s : State) (n : Reg) (v : Word) (i : Nat) : (s.setReg n v).byte i = s.byte i := rfl
@[simp] theorem State.byte_setFlags (s : State) (f : Flags) (i : Nat) : (s.setFlags f).byte i = s.byte i := rfl
@[simp] theorem State.byte_setPc (s : State) (a : Word) (i : Nat) : (s.setPc a).byte i = s.byte i := rfl
@[simp] theorem State.byte_emitDump (s : State) (a : Word) (i : Nat) : (s.emitDump a).byte i = s.byte i := rfl

/-- Two states with the same fields are equal, the registers compared one by one. -/
theorem State.ext_reg {s t : State} (hc : s.cfg = t.cfg) (hr : ∀ n, s.reg n = t.reg n) (hf : s.flags = t.flags)
    (hm : s.mem = t.mem) (hp : s.pc = t.pc) (ht : s.trace = t.trace) : s = t := by
  have hregs : s.regs = t.regs := by
    apply Vector.ext
    intro i hi
    exact hr ⟨i, hi⟩
  cases s
  cases t
  simp_all

end Sys2Proof.Machine
end

