-- ==== Sys2Proof/Laws/Decode.lean ====
section
/-! SUPPORT. The masks of the rule list read as quotients, the classification of a word as a chain of tests on its
value, and the fields of the words that the encoder builds. -/

namespace Sys2Proof

/-! ### Masks as quotients -/

/-- A word under a mask that keeps its bits from `k` up. -/
theorem and_mask_eq_shift (w : Word) (k : Nat) (hk : k ≤ 16) :
    w &&& (BitVec.allOnes 16 <<< k) = (w >>> k) <<< k := by
  apply BitVec.eq_of_getLsbD_eq
  intro i hi
  simp only [BitVec.getLsbD_and, BitVec.getLsbD_shiftLeft, BitVec.getLsbD_ushiftRight, BitVec.getLsbD_allOnes]
  by_cases h : i < k
  · simp [h]
  · have : k + (i - k) = i := by omega
    have h16 : i - k < 16 := by omega
    simp [h, this, h16, hi]

theorem toNat_and_mask (w : Word) (k : Nat) (hk : k ≤ 16) :
    (w &&& (BitVec.allOnes 16 <<< k)).toNat = w.toNat / 2 ^ k * 2 ^ k := by
  rw [and_mask_eq_shift w k hk, BitVec.toNat_shiftLeft, BitVec.toNat_ushiftRight, Nat.shiftRight_eq_div_pow,
    Nat.shiftLeft_eq]
  apply Nat.mod_eq_of_lt
  have := w.isLt
  have := Nat.div_mul_le_self w.toNat (2 ^ k)
  omega

theorem toNat_and_FF80 (w : Word) : (w &&& 0xFF80#16).toNat = w.toNat / 128 * 128 := toNat_and_mask w 7 (by decide)
theorem toNat_and_FC00 (w : Word) : (w &&& 0xFC00#16).toNat = w.toNat / 1024 * 1024 := toNat_and_mask w 10 (by decide)
theorem toNat_and_F000 (w : Word) : (w &&& 0xF000#16).toNat = w.toNat / 4096 * 4096 := toNat_and_mask w 12 (by decide)

theorem and_FF80_beq (w v : Word) (hv : v.toNat % 128 = 0) :
    (w &&& 0xFF80#16 == v) = decide (w.toNat / 128 = v.toNat / 128) := by
  rw [Bool.eq_iff_iff, beq_iff_eq, decide_eq_true_iff, ← BitVec.toNat_inj, toNat_and_FF80]
  omega

theorem and_FC00_beq (w v : Word) (hv : v.toNat % 1024 = 0) :
    (w &&& 0xFC00#16 == v) = decide (w.toNat / 1024 = v.toNat / 1024) := by
  rw [Bool.eq_iff_iff, beq_iff_eq, decide_eq_true_iff, ← BitVec.toNat_inj, toNat_and_FC00]
  omega

theorem and_F000_beq (w v : Word) (hv : v.toNat % 4096 = 0) :
    (w &&& 0xF000#16 == v) = decide (w.toNat / 4096 = v.toNat / 4096) := by
  rw [Bool.eq_iff_iff, beq_iff_eq, decide_eq_true_iff, ← BitVec.toNat_inj, toNat_and_F000]
  omega

theorem and_FFFF_beq (w v : Word) : (w &&& 0xFFFF#16 == v) = decide (w.toNat = v.toNat) := by
  have h : w &&& 0xFFFF#16 = w := BitVec.and_allOnes
  rw [h, Bool.eq_iff_iff, beq_iff_eq, decide_eq_true_iff, BitVec.toNat_inj]

/-! ### The classification as a chain of tests -/

/-- The rule list, run: the first row that matches, row by row. -/
theorem classify_chain (w : Word) :
    classify w =
      if w.toNat / 128 = 32 then .single .rrc
      else if w.toNat / 128 = 33 then .single .swpb
      else if w.toNat / 128 = 34 then .single .rra
      else if w.toNat / 128 = 35 then .single .sxt
      else if w.toNat / 128 = 36 then .single .push
      else if w.toNat / 128 = 37 then .single .call
      else if w.toNat = 0x1300 then .reti
      else if w.toNat / 1024 = 8 then .jump .jnz
      else if w.toNat / 1024 = 9 then .jump .jz
      else if w.toNat / 1024 = 10 then .jump .jnc
      else if w.toNat / 1024 = 11 then .jump .jc
      else if w.toNat / 1024 = 12 then .jump .jn
      else if w.toNat / 1024 = 13 then .jump .jge
      else if w.toNat / 1024 = 14 then .jump .jl
      else if w.toNat / 1024 = 15 then .jump .jmp
      else if w.toNat / 4096 = 4 then .double .mov
      else if w.toNat / 4096 = 5 then .double .add
      else if w.toNat / 4096 = 6 then .double .addc
      else if w.toNat / 4096 = 7 then .double .subc
      else if w.toNat / 4096 = 8 then .double .sub
      else if w.toNat / 4096 = 9 then .double .cmp
      else if w.toNat / 4096 = 10 then .double .dadd
      else if w.toNat / 4096 = 11 then .double .bit
      else if w.toNat / 4096 = 12 then .double .bic
      else if w.toNat / 4096 = 13 then .double .bis
      else if w.toNat / 4096 = 14 then .double .xor
      else if w.toNat / 4096 = 15 then .double .and
      else .nop := by
  have cons : ∀ (r : DispatchRule) (rs : List DispatchRule) (p : Prop) [Decidable p] (x : Subtype),
      r.matches w = decide p → (((rs.find? fun r => r.matches w).getD fallbackRule).subtype = x) →
      (((r :: rs).find? fun r => r.matches w).getD fallbackRule).subtype = if p then r.subtype else x := by
    intro r rs p _ x hp hx
    rw [List.find?_cons, hp]
    by_cases h : p
    · simp [h]
    · simpa [h] using hx
  unfold classify firstRule ruleList singleOperandRules jumpRules doubleOperandRules
  simp only [List.cons_append, List.nil_append]
  iterate 6 refine cons _ _ _ _ (and_FF80_beq w _ (by decide)) ?_
  refine cons _ _ _ _ (and_FFFF_beq w _) ?_
  iterate 8 refine cons _ _ _ _ (and_FC00_beq w _ (by decide)) ?_
  iterate 12 refine cons _ _ _ _ (and_F000_beq w _ (by decide)) ?_
  simp [DispatchRule.matches, fallbackRule]

/-! ### The words of the encoder, as numbers -/

theorem toNat_singleWord (k : SingleOp) (bw : Bool) (o : Operand) :
    (singleWord k bw o).toNat =
      0x1000 + k.selector.toNat * 128 + bw.toNat * 64 + o.asBits.toNat * 16 + o.reg.val := by
  have h1 := k.selector.isLt
  have h2 := o.asBits.isLt
  have h3 := o.reg.isLt
  have h4 : bw.toNat < 2 := by cases bw <;> decide
  unfold singleWord
  simp only [BitVec.toNat_append, BitVec.toNat_ofBool, BitVec.toNat_ofFin, BitVec.toNat_ofNat]
  rw [← Nat.shiftLeft_add_eq_or_of_lt h3, ← Nat.shiftLeft_add_eq_or_of_lt h2, ← Nat.shiftLeft_add_eq_or_of_lt (i := 1) h4,
    ← Nat.shiftLeft_add_eq_or_of_lt h1]
  simp only [Nat.shiftLeft_eq]
  omega

theorem toNat_jumpWord (j : JumpOp) (f : BitVec 10) :
    (jumpWord j f).toNat = 0x2000 + j.cond.toNat * 1024 + f.toNat := by
  have h1 := j.cond.isLt
  have h2 := f.isLt
  unfold jumpWord
  simp only [BitVec.toNat_append, BitVec.toNat_ofNat]
  rw [← Nat.shiftLeft_add_eq_or_of_lt h2, ← Nat.shiftLeft_add_eq_or_of_lt h1]
  simp only [Nat.shiftLeft_eq]
  omega

theorem toNat_doubleWord (d : DoubleOp) (rest : BitVec 12) :
    (doubleWord d rest).toNat = d.opcode.toNat * 4096 + rest.toNat := by
  have h2 := rest.isLt
  unfold doubleWord
  simp only [BitVec.toNat_append]
  rw [← Nat.shiftLeft_add_eq_or_of_lt h2]
  simp only [Nat.shiftLeft_eq]

/-! ### Their rows -/

theorem classify_singleWord (k : SingleOp) (bw : Bool) (o : Operand) : classify (singleWord k bw o) = .single k := by
  have h2 := o.asBits.isLt
  have h3 := o.reg.isLt
  have h4 : bw.toNat < 2 := by cases bw <;> decide
  have hq : (singleWord k bw o).toNat / 128 = 32 + k.selector.toNat := by
    rw [toNat_singleWord]
    omega
  rw [classify_chain, hq]
  cases k <;> rfl

theorem classify_jumpWord (j : JumpOp) (f : BitVec 10) : classify (jumpWord j f) = .jump j := by
  have h2 := f.isLt
  have h1 := j.cond.isLt
  have hw := toNat_jumpWord j f
  have hq : (jumpWord j f).toNat / 1024 = 8 + j.cond.toNat := by omega
  rw [classify_chain, if_neg (by omega), if_neg (by omega), if_neg (by omega), if_neg (by omega), if_neg (by omega),
    if_neg (by omega), if_neg (by omega), hq]
  cases j <;> rfl

theorem classify_doubleWord (d : DoubleOp) (rest : BitVec 12) : classify (doubleWord d rest) = .double d := by
  have h2 := rest.isLt
  have hd : 4 ≤ d.opcode.toNat := by cases d <;> decide
  have hw := toNat_doubleWord d rest
  have hq : (doubleWord d rest).toNat / 4096 = d.opcode.toNat := by omega
  rw [classify_chain]
  iterate 15 rw [if_neg (by omega)]
  rw [hq]
  cases d <;> rfl

theorem classify_reti : classify 0x1300 = .reti := by decide

/-- R60's list of words and the rule list agree: a word reaches row 28 exactly when R60 lists it. -/
theorem isFallbackWord_iff (w : Word) :
    isFallbackWord w = true ↔
      w.toNat ≤ 0x0FFF ∨ (0x1301 ≤ w.toNat ∧ w.toNat ≤ 0x137F) ∨ (0x1380 ≤ w.toNat ∧ w.toNat ≤ 0x1FFF) := by
  simp [isFallbackWord, or_assoc]

theorem classify_fallback {w : Word} (h : isFallbackWord w = true) : classify w = .nop := by
  rw [isFallbackWord_iff] at h
  rw [classify_chain]
  iterate 27 rw [if_neg (by omega)]

/-! ### Their fields -/

theorem byteFlag_singleWord (k : SingleOp) (bw : Bool) (o : Operand) : byteFlag (singleWord k bw o) = bw := by
  have h2 := o.asBits.isLt
  have h3 := o.reg.isLt
  have h4 : bw.toNat < 2 := by cases bw <;> decide
  have hw := toNat_singleWord k bw o
  unfold byteFlag BitVec.getLsbD
  rw [Nat.testBit_eq_decide_div_mod_eq, hw]
  have hq : (0x1000 + k.selector.toNat * 128 + bw.toNat * 64 + o.asBits.toNat * 16 + o.reg.val) / 2 ^ 6 % 2 =
      bw.toNat := by omega
  rw [hq]
  cases bw <;> rfl

theorem asField_singleWord (k : SingleOp) (bw : Bool) (o : Operand) : asField (singleWord k bw o) = o.asBits := by
  have h2 := o.asBits.isLt
  have h3 := o.reg.isLt
  have hw := toNat_singleWord k bw o
  unfold asField
  apply BitVec.eq_of_toNat_eq
  rw [BitVec.extractLsb'_toNat, Nat.shiftRight_eq_div_pow, hw]
  omega

theorem regField_singleWord (k : SingleOp) (bw : Bool) (o : Operand) : regField (singleWord k bw o) = o.reg := by
  have h3 := o.reg.isLt
  have hw := toNat_singleWord k bw o
  apply Fin.ext
  have hx : (regField (singleWord k bw o)).val = ((singleWord k bw o).extractLsb' 0 4).toNat := rfl
  rw [hx, BitVec.extractLsb'_toNat, Nat.shiftRight_zero, hw]
  omega

theorem jumpField_jumpWord (j : JumpOp) (f : BitVec 10) : jumpField (jumpWord j f) = f := by
  have h2 := f.isLt
  have hw := toNat_jumpWord j f
  unfold jumpField
  apply BitVec.eq_of_toNat_eq
  rw [BitVec.extractLsb'_toNat, Nat.shiftRight_zero, hw]
  omega

theorem unexaminedBits_doubleWord (d : DoubleOp) (rest : BitVec 12) : unexaminedBits (doubleWord d rest) = rest := by
  have h2 := rest.isLt
  have hw := toNat_doubleWord d rest
  unfold unexaminedBits
  apply BitVec.eq_of_toNat_eq
  rw [BitVec.extractLsb'_toNat, Nat.shiftRight_zero, hw]
  omega

/-! ### Lengths -/

/-- A word is of a single-operand row exactly when its upper nine bits are one of six. -/
theorem classify_single_iff (w : Word) :
    (∃ k, classify w = .single k) ↔ 32 ≤ w.toNat / 128 ∧ w.toNat / 128 ≤ 37 := by
  constructor
  · rintro ⟨k, hk⟩
    by_contra hn
    have skip : ∀ (p : Prop) [Decidable p] (a x : Subtype), (if p then a else x) = .single k →
        a ≠ .single k → x = .single k := by
      intro p _ a x h ha
      by_cases hp : p
      · exact absurd ((if_pos hp).symm.trans h) ha
      · exact (if_neg hp).symm.trans h
    rw [classify_chain, if_neg (by omega), if_neg (by omega), if_neg (by omega), if_neg (by omega), if_neg (by omega),
      if_neg (by omega)] at hk
    iterate 21 replace hk := skip _ _ _ hk nofun
    cases hk
  · rintro ⟨h1, h2⟩
    generalize hq : w.toNat / 128 = q at h1 h2
    rw [classify_chain, hq]
    interval_cases q
    exacts [⟨.rrc, rfl⟩, ⟨.swpb, rfl⟩, ⟨.rra, rfl⟩, ⟨.sxt, rfl⟩, ⟨.push, rfl⟩, ⟨.call, rfl⟩]

/-- The length test of R50 reads the row and the mode. -/
theorem needsExtension_iff (w : Word) :
    needsExtension w = true ↔ (∃ k, classify w = .single k) ∧ asField w = 1 := by
  have row : ∀ n : Nat, n < 0x10000 → n % 128 = 0 →
      ((w &&& 0xFF80#16 == BitVec.ofNat 16 n) = true ↔ w.toNat / 128 = n / 128) := by
    intro n hn hm
    have hv : (BitVec.ofNat 16 n).toNat = n := by simp; omega
    rw [and_FF80_beq w _ (by rw [hv]; exact hm), decide_eq_true_iff, hv]
  rw [classify_single_iff]
  unfold needsExtension
  rw [Bool.and_eq_true, Bool.or_eq_true, Bool.or_eq_true, Bool.or_eq_true, Bool.or_eq_true, Bool.or_eq_true,
    row _ (by decide) (by decide), row _ (by decide) (by decide), row _ (by decide) (by decide),
    row _ (by decide) (by decide), row _ (by decide) (by decide), row _ (by decide) (by decide), beq_iff_eq]
  refine and_congr_left fun _ => ?_
  omega

/-! ### The classification, inverted -/

/-- Every word is of exactly the row that its value says. -/
theorem classify_cases (w : Word) :
    (∃ k, classify w = .single k ∧ w.toNat / 128 = 32 + k.selector.toNat) ∨
    (classify w = .reti ∧ w = 0x1300) ∨
    (∃ j, classify w = .jump j ∧ w.toNat / 1024 = 8 + j.cond.toNat) ∨
    (∃ d, classify w = .double d ∧ w.toNat / 4096 = d.opcode.toNat) ∨
    (classify w = .nop ∧ isFallbackWord w = true) := by
  have hw := w.isLt
  by_cases h1 : 32 ≤ w.toNat / 128 ∧ w.toNat / 128 ≤ 37
  · left
    obtain ⟨h1, h2⟩ := h1
    generalize hq : w.toNat / 128 = q at h1 h2
    rw [classify_chain, hq]
    interval_cases q
    exacts [⟨.rrc, rfl, rfl⟩, ⟨.swpb, rfl, rfl⟩, ⟨.rra, rfl, rfl⟩, ⟨.sxt, rfl, rfl⟩, ⟨.push, rfl, rfl⟩,
      ⟨.call, rfl, rfl⟩]
  by_cases h2 : w.toNat = 0x1300
  · have : w = 0x1300#16 := BitVec.eq_of_toNat_eq h2
    subst this
    exact .inr (.inl ⟨classify_reti, rfl⟩)
  by_cases h3 : 8 ≤ w.toNat / 1024 ∧ w.toNat / 1024 ≤ 15
  · right; right; left
    obtain ⟨h3, h4⟩ := h3
    rw [classify_chain]
    iterate 7 rw [if_neg (by omega)]
    clear h1 h2
    generalize w.toNat / 1024 = q at h3 h4
    interval_cases q
    exacts [⟨.jnz, rfl, rfl⟩, ⟨.jz, rfl, rfl⟩, ⟨.jnc, rfl, rfl⟩, ⟨.jc, rfl, rfl⟩, ⟨.jn, rfl, rfl⟩, ⟨.jge, rfl, rfl⟩,
      ⟨.jl, rfl, rfl⟩, ⟨.jmp, rfl, rfl⟩]
  by_cases h4 : 4 ≤ w.toNat / 4096
  · right; right; right; left
    have h5 : w.toNat / 4096 ≤ 15 := by omega
    rw [classify_chain]
    iterate 15 rw [if_neg (by omega)]
    clear h1 h2 h3
    generalize w.toNat / 4096 = q at h4 h5
    interval_cases q
    exacts [⟨.mov, rfl, rfl⟩, ⟨.add, rfl, rfl⟩, ⟨.addc, rfl, rfl⟩, ⟨.subc, rfl, rfl⟩, ⟨.sub, rfl, rfl⟩,
      ⟨.cmp, rfl, rfl⟩, ⟨.dadd, rfl, rfl⟩, ⟨.bit, rfl, rfl⟩, ⟨.bic, rfl, rfl⟩, ⟨.bis, rfl, rfl⟩, ⟨.xor, rfl, rfl⟩,
      ⟨.and, rfl, rfl⟩]
  · have hf : isFallbackWord w = true := (isFallbackWord_iff w).mpr (by omega)
    exact .inr (.inr (.inr (.inr ⟨classify_fallback hf, hf⟩)))

theorem toNat_of_classify_single {w : Word} {k : SingleOp} (h : classify w = .single k) :
    w.toNat / 128 = 32 + k.selector.toNat := by
  rcases classify_cases w with ⟨_, hc, hq⟩ | ⟨hc, -⟩ | ⟨_, hc, -⟩ | ⟨_, hc, -⟩ | ⟨hc, -⟩ <;> rw [hc] at h <;> cases h
  exact hq

theorem toNat_of_classify_jump {w : Word} {j : JumpOp} (h : classify w = .jump j) :
    w.toNat / 1024 = 8 + j.cond.toNat := by
  rcases classify_cases w with ⟨_, hc, -⟩ | ⟨hc, -⟩ | ⟨_, hc, hq⟩ | ⟨_, hc, -⟩ | ⟨hc, -⟩ <;> rw [hc] at h <;> cases h
  exact hq

theorem toNat_of_classify_double {w : Word} {d : DoubleOp} (h : classify w = .double d) :
    w.toNat / 4096 = d.opcode.toNat := by
  rcases classify_cases w with ⟨_, hc, -⟩ | ⟨hc, -⟩ | ⟨_, hc, -⟩ | ⟨_, hc, hq⟩ | ⟨hc, -⟩ <;> rw [hc] at h <;> cases h
  exact hq

end Sys2Proof
end

