-- ==== Sys2Proof/Laws/Memory.lean ====
section
/-! SUPPORT. The Memory Store's contents: a read after a write, the entries of a write, and the canonical form, which
every write keeps. -/

namespace Sys2Proof.Machine

@[simp] theorem Memory.read_nil (a : Nat) : Memory.read [] a = none := rfl

theorem Memory.read_cons (x : Host.Cell) (m : Memory) (a : Nat) :
    Memory.read (x :: m) a = if a = x.1 then some x.2 else Memory.read m a := rfl

@[simp] theorem Memory.read_write_same (m : Memory) (a : Nat) (b : Byte) :
    Memory.read (Memory.write m a b) a = some b := by
  induction m with
  | nil => simp [Memory.write, Memory.read]
  | cons x m ih =>
    rw [Memory.write]
    split
    · simp [Memory.read]
    · split
      · simp [Memory.read]
      · next h => simp [Memory.read, h, ih]

theorem Memory.read_write_ne (m : Memory) {a i : Nat} (b : Byte) (h : i ≠ a) :
    Memory.read (Memory.write m a b) i = Memory.read m i := by
  induction m with
  | nil => simp [Memory.write, Memory.read, h]
  | cons x m ih =>
    rw [Memory.write]
    split
    · rw [Memory.read_cons, if_neg h]
    · split
      · next hx =>
        subst hx
        rw [Memory.read_cons, Memory.read_cons, if_neg h, if_neg h]
      · rw [Memory.read_cons, Memory.read_cons, ih]

theorem Memory.read_write (m : Memory) (a i : Nat) (b : Byte) :
    Memory.read (Memory.write m a b) i = if i = a then some b else Memory.read m i := by
  split
  · next h => rw [h, Memory.read_write_same]
  · next h => exact Memory.read_write_ne m b h

/-- An entry of a written memory is the new one or an old one. -/
theorem Memory.mem_write {m : Memory} {a : Nat} {b : Byte} {x : Host.Cell} (h : x ∈ Memory.write m a b) :
    x = (a, b) ∨ x ∈ m := by
  induction m with
  | nil => simpa [Memory.write] using h
  | cons y m ih =>
    rw [Memory.write] at h
    split at h
    · rcases List.mem_cons.mp h with h | h
      · exact .inl h
      · exact .inr h
    · split at h
      · rcases List.mem_cons.mp h with h | h
        · exact .inl h
        · exact .inr (List.mem_cons_of_mem _ h)
      · rcases List.mem_cons.mp h with h | h
        · exact .inr (h ▸ List.mem_cons_self)
        · rcases ih h with h | h
          · exact .inl h
          · exact .inr (List.mem_cons_of_mem _ h)

/-- A write keeps the addresses strictly rising. -/
theorem Memory.pairwise_write {m : Memory} (a : Nat) (b : Byte) (h : m.Pairwise (fun x y => x.1 < y.1)) :
    (Memory.write m a b).Pairwise (fun x y => x.1 < y.1) := by
  induction m with
  | nil => simp [Memory.write]
  | cons x m ih =>
    obtain ⟨hx, hm⟩ := List.pairwise_cons.mp h
    rw [Memory.write]
    split
    · next hlt =>
      refine List.pairwise_cons.mpr ⟨fun y hy => ?_, h⟩
      rcases List.mem_cons.mp hy with hy | hy
      · exact hy ▸ hlt
      · exact Nat.lt_trans hlt (hx y hy)
    · split
      · next heq =>
        subst heq
        exact List.pairwise_cons.mpr ⟨hx, hm⟩
      · next hlt hne =>
        refine List.pairwise_cons.mpr ⟨fun y hy => ?_, ih hm⟩
        rcases Memory.mem_write hy with hy | hy
        · subst hy
          show x.1 < a
          omega
        · exact hx y hy

/-- A write in the address space keeps the canonical form. -/
theorem Memory.wf_write {m : Memory} {a : Nat} (b : Byte) (h : m.wf) (ha : a < 0x10000) : (Memory.write m a b).wf := by
  refine ⟨Memory.pairwise_write a b h.1, fun x hx => ?_⟩
  rcases Memory.mem_write hx with hx | hx
  · exact hx ▸ ha
  · exact h.2 x hx

/-- The empty memory has the canonical form. -/
theorem Memory.wf_nil : Memory.wf [] := by simp [Memory.wf]

/-- Two canonical memories that read alike at every address are the same list. -/
theorem Memory.eq_of_read_eq {m m' : Memory} (h : m.wf) (h' : m'.wf)
    (hr : ∀ a, Memory.read m a = Memory.read m' a) : m = m' := by
  have none_below : ∀ (l : Memory) (a : Nat), (∀ x ∈ l, a < x.1) → Memory.read l a = none := by
    intro l a hl
    induction l with
    | nil => rfl
    | cons x l ih =>
      have hx := hl x List.mem_cons_self
      rw [Memory.read_cons, if_neg (by omega)]
      exact ih fun y hy => hl y (List.mem_cons_of_mem _ hy)
  induction m generalizing m' with
  | nil =>
    cases m' with
    | nil => rfl
    | cons y m' =>
      have := hr y.1
      simp [Memory.read_cons] at this
  | cons x m ih =>
    cases m' with
    | nil =>
      have := hr x.1
      simp [Memory.read_cons] at this
    | cons y m' =>
      obtain ⟨hx, hm⟩ := List.pairwise_cons.mp h.1
      obtain ⟨hy, hm'⟩ := List.pairwise_cons.mp h'.1
      have key : x.1 = y.1 := by
        rcases Nat.lt_trichotomy x.1 y.1 with hlt | heq | hlt
        · have := hr x.1
          rw [none_below (y :: m') x.1 (by
            intro z hz
            rcases List.mem_cons.mp hz with hz | hz
            · exact hz ▸ hlt
            · exact Nat.lt_trans hlt (hy z hz))] at this
          simp [Memory.read_cons] at this
        · exact heq
        · have := hr y.1
          rw [none_below (x :: m) y.1 (by
            intro z hz
            rcases List.mem_cons.mp hz with hz | hz
            · exact hz ▸ hlt
            · exact Nat.lt_trans hlt (hx z hz))] at this
          simp [Memory.read_cons] at this
      have hval : x.2 = y.2 := by
        have := hr x.1
        rw [Memory.read_cons, Memory.read_cons, if_pos rfl, if_pos key] at this
        exact Option.some.inj this
      have htail : m = m' := by
        refine ih ⟨hm, fun z hz => h.2 z (List.mem_cons_of_mem _ hz)⟩
          ⟨hm', fun z hz => h'.2 z (List.mem_cons_of_mem _ hz)⟩ fun a => ?_
        by_cases ha : a = x.1
        · subst ha
          rw [none_below m x.1 hx, none_below m' x.1 (fun z hz => key ▸ hy z hz)]
        · have := hr a
          rwa [Memory.read_cons, Memory.read_cons, if_neg ha, if_neg (key ▸ ha)] at this
      rw [htail, Prod.ext key hval]

/-! ### Through the state -/

@[simp] theorem State.byte_setByte_same (s : State) (a : Nat) (b : Byte) : (s.setByte a b).byte a = some b :=
  Memory.read_write_same s.mem a b

theorem State.byte_setByte_ne (s : State) {a i : Nat} (b : Byte) (h : i ≠ a) : (s.setByte a b).byte i = s.byte i :=
  Memory.read_write_ne s.mem b h

@[simp] theorem State.byte_setWord_low (s : State) (a w : Word) : (s.setWord a w).byte a.toNat = some (loByte w) := by
  rw [State.setWord, State.byte_setByte_ne _ _ (by omega), State.byte_setByte_same]

@[simp] theorem State.byte_setWord_high (s : State) (a w : Word) :
    (s.setWord a w).byte (a.toNat + 1) = some (hiByte w) :=
  State.byte_setByte_same _ _ _

theorem State.byte_setWord_ne (s : State) {a : Word} {i : Nat} (w : Word) (h : i ≠ a.toNat) (h' : i ≠ a.toNat + 1) :
    (s.setWord a w).byte i = s.byte i := by
  rw [State.setWord, State.byte_setByte_ne _ _ h', State.byte_setByte_ne _ _ h]

end Sys2Proof.Machine
end

