-- ==== Sys2Proof/Laws/Ops.lean ====
section
/-! SUPPORT. What each operation of the MEM port can do, said once, and that each keeps the invariant. -/

namespace Sys2Proof.Machine

open Sys2Proof.Safety

/-! ### Bytes of a word -/

@[simp] theorem wordOfBytes_lo_hi (w : Word) : wordOfBytes (loByte w) (hiByte w) = w := by
  apply BitVec.eq_of_getLsbD_eq
  intro i hi
  simp only [wordOfBytes, loByte, hiByte, BitVec.getLsbD_append, BitVec.getLsbD_extractLsb']
  by_cases h : i < 8
  · simp [h]
  · have h8 : i - 8 < 8 := by omega
    have hs : 8 + (i - 8) = i := by omega
    simp [h, h8, hs]

@[simp] theorem loByte_wordOfBytes (lo hi : Byte) : loByte (wordOfBytes lo hi) = lo := by
  apply BitVec.eq_of_getLsbD_eq
  intro i h
  simp only [wordOfBytes, loByte, BitVec.getLsbD_append, BitVec.getLsbD_extractLsb']
  simp [h]

@[simp] theorem hiByte_wordOfBytes (lo hi : Byte) : hiByte (wordOfBytes lo hi) = hi := by
  apply BitVec.eq_of_getLsbD_eq
  intro i h
  simp only [wordOfBytes, hiByte, BitVec.getLsbD_append, BitVec.getLsbD_extractLsb']
  simp [h]

/-! ### The window -/

/-- A word in range has both bytes in range. -/
theorem inRangeByte_of_inRangeWord {c : Config} {a : Word} (h : inRangeWord c a = true) :
    inRangeByte c a.toNat = true ∧ inRangeByte c (a.toNat + 1) = true := by
  simpa [inRangeWord] using h

/-- A byte in range lies in the address space. -/
theorem lt_of_inRangeByte {c : Config} {a : Nat} (hc : c.wf) (h : inRangeByte c a = true) : a < 0x10000 := by
  have hw := hc.2.2
  simp [inRangeByte] at h
  omega

/-! ### Loads and stores -/

/-- A load that succeeds read two written bytes in range. -/
theorem loadWord_ok {s : State} {a w : Word} (h : loadWord s a = .ok w) :
    inRangeWord s.cfg a = true ∧ s.byte a.toNat = some (loByte w) ∧ s.byte (a.toNat + 1) = some (hiByte w) := by
  unfold loadWord at h
  split at h
  · next hr =>
    split at h
    · next lo hi hlo hhi =>
      have := Except.ok.inj h
      subst this
      exact ⟨hr, by simpa using hlo, by simpa using hhi⟩
    all_goals cases h
  · cases h

/-- A load out of range reports it, and nothing else. -/
theorem loadWord_outOfRange {s : State} {a : Word} (h : inRangeWord s.cfg a = false) :
    loadWord s a = .error .outOfRange := by
  simp [loadWord, h]

/-- The reference Memory Store reports no third kind of failure. -/
theorem loadWord_ne_other (s : State) (a : Word) : loadWord s a ≠ .error .other := by
  unfold loadWord
  split
  · split <;> simp
  · simp

/-- A load fails with OutOfRange exactly when the word is out of range. -/
theorem loadWord_error {s : State} {a : Word} {k : FailKind} (h : loadWord s a = .error k) :
    (k = .outOfRange ∧ inRangeWord s.cfg a = false) ∨ (k = .uninitialized ∧ inRangeWord s.cfg a = true) := by
  unfold loadWord at h
  split at h
  · next hr =>
    split at h
    · cases h
    all_goals exact .inr ⟨(Except.error.inj h).symm, hr⟩
  · next hr => exact .inl ⟨(Except.error.inj h).symm, by simpa using hr⟩

/-- The word just stored is loaded. -/
theorem loadWord_setWord_same (s : State) {a : Word} (w : Word) (h : inRangeWord s.cfg a = true) :
    loadWord (s.setWord a w) a = .ok w := by
  simp [loadWord, h]

/-- Where a load succeeds it gives `wordAt`, and where it fails there is no `wordAt`. -/
theorem wordAt_eq (s : State) (a : Word) : wordAt s a = (loadWord s a).toOption := by
  unfold wordAt loadWord
  split
  · cases s.byte a.toNat <;> cases s.byte (a.toNat + 1) <;> rfl
  · rfl

/-- What a word store of the block or of a mutator can do. -/
theorem memWriteWord_cases (s : State) (a w : Word) :
    (isOdd a = true ∧ memWriteWord s a w = .error (endMisaligned s)) ∨
    (isOdd a = false ∧ inRangeWord s.cfg a = false ∧ memWriteWord s a w = .error (endFatal .outOfRange s)) ∨
    (isOdd a = false ∧ inRangeWord s.cfg a = true ∧ memWriteWord s a w = .ok (s.setWord a w)) := by
  unfold memWriteWord storeWord
  cases hodd : isOdd a
  · cases hr : inRangeWord s.cfg a
    · exact .inr (.inl ⟨rfl, rfl, by simp⟩)
    · exact .inr (.inr ⟨rfl, rfl, by simp⟩)
  · exact .inl ⟨rfl, by simp⟩

/-- What a byte store of a mutator can do. -/
theorem memWriteByte_cases (s : State) (a : Word) (b : Byte) :
    (inRangeByte s.cfg a.toNat = false ∧ memWriteByte s a b = .error (endFatal .outOfRange s)) ∨
    (inRangeByte s.cfg a.toNat = true ∧ memWriteByte s a b = .ok (s.setByte a.toNat b)) := by
  unfold memWriteByte storeByte
  cases hr : inRangeByte s.cfg a.toNat
  · exact .inl ⟨rfl, by simp⟩
  · exact .inr ⟨rfl, by simp⟩

/-- What a word read of the block can do. -/
theorem memReadWord_cases (s : State) (a : Word) :
    (isOdd a = true ∧ memReadWord s a = .error (endMisaligned s)) ∨
    (isOdd a = false ∧ (∃ k, k ≠ .other ∧ loadWord s a = .error k ∧ memReadWord s a = .error (endFatal k s))) ∨
    (isOdd a = false ∧ ∃ w, loadWord s a = .ok w ∧ memReadWord s a = .ok w) := by
  unfold memReadWord
  cases hodd : isOdd a
  · cases hl : loadWord s a with
    | error k =>
      refine .inr (.inl ⟨rfl, k, fun hk => ?_, rfl, by simp⟩)
      exact loadWord_ne_other s a (hk ▸ hl)
    | ok w => exact .inr (.inr ⟨rfl, w, rfl, by simp⟩)
  · exact .inl ⟨rfl, by simp⟩

/-! ### The invariant, operation by operation -/

@[simp] theorem inv_setReg (s : State) (n : Reg) (v : Word) : Inv (s.setReg n v) ↔ Inv s := Iff.rfl
@[simp] theorem inv_setFlags (s : State) (f : Flags) : Inv (s.setFlags f) ↔ Inv s := Iff.rfl
@[simp] theorem inv_setPc (s : State) (a : Word) : Inv (s.setPc a) ↔ Inv s := Iff.rfl
@[simp] theorem inv_emitDump (s : State) (a : Word) : Inv (s.emitDump a) ↔ Inv s := Iff.rfl

/-- A byte stored in range keeps the invariant. -/
theorem inv_setByte {s : State} {a : Nat} (b : Byte) (hi : Inv s) (ha : inRangeByte s.cfg a = true) :
    Inv (s.setByte a b) := by
  obtain ⟨hc, hm, hw⟩ := hi
  refine ⟨hc, Memory.wf_write b hm (lt_of_inRangeByte hc ha), fun x hx => ?_⟩
  rcases Memory.mem_write hx with hx | hx
  · exact hx ▸ ha
  · exact hw x hx

/-- A word stored in range keeps the invariant. -/
theorem inv_setWord {s : State} {a : Word} (w : Word) (hi : Inv s) (ha : inRangeWord s.cfg a = true) :
    Inv (s.setWord a w) := by
  obtain ⟨h0, h1⟩ := inRangeByte_of_inRangeWord ha
  exact inv_setByte _ (inv_setByte _ hi h0) h1

end Sys2Proof.Machine
end

