-- ==== Sys2Proof/Laws/Mutators.lean ====
section
/-! SUPPORT. The results and flags of the reference mutators as numbers (43_reference_execution_unit.md R141 to R144):
later proofs about a result cite these and do not unfold its bits. -/

namespace Sys2Proof.Machine

theorem toNat_loByte (v : Word) : (loByte v).toNat = v.toNat % 256 := by
  simp [loByte, BitVec.extractLsb'_toNat]

theorem toNat_hiByte (v : Word) : (hiByte v).toNat = v.toNat / 256 := by
  have := v.isLt
  simp [hiByte, BitVec.extractLsb'_toNat, Nat.shiftRight_eq_div_pow]
  omega

theorem toNat_zeroExtendByte (b : Byte) : (zeroExtendByte b).toNat = b.toNat := by
  have := b.isLt
  simp [zeroExtendByte]
  omega

theorem toNat_rrcWord (c : Bool) (v : Word) : (rrcWord c v).toNat = v.toNat / 2 + if c then 0x8000 else 0 := by
  cases c
  · simp [rrcWord, Nat.shiftRight_eq_div_pow]
  · have hv := v.isLt
    have h2 : v.toNat / 2 < 2 ^ 15 := by omega
    have := Nat.shiftLeft_add_eq_or_of_lt h2 1
    simp only [rrcWord, if_true, BitVec.toNat_or, BitVec.toNat_ushiftRight, Nat.shiftRight_eq_div_pow]
    simp at this ⊢
    omega

theorem toNat_rrcByte (c : Bool) (v : Byte) : (rrcByte c v).toNat = v.toNat / 2 + if c then 0x80 else 0 := by
  cases c
  · simp [rrcByte, Nat.shiftRight_eq_div_pow]
  · have hv := v.isLt
    have h2 : v.toNat / 2 < 2 ^ 7 := by omega
    have := Nat.shiftLeft_add_eq_or_of_lt h2 1
    simp only [rrcByte, if_true, BitVec.toNat_or, BitVec.toNat_ushiftRight, Nat.shiftRight_eq_div_pow]
    simp at this ⊢
    omega

theorem toNat_rraWord (v : Word) : (rraWord v).toNat = v.toNat / 2 + v.toNat / 0x8000 * 0x8000 := by
  have := v.isLt
  simp only [rraWord, BitVec.toNat_append]
  rw [← Nat.shiftLeft_add_eq_or_of_lt (BitVec.isLt _), Nat.shiftLeft_eq]
  simp [BitVec.extractLsb'_toNat, Nat.shiftRight_eq_div_pow]
  omega

theorem toNat_rraByte (v : Byte) : (rraByte v).toNat = v.toNat / 2 + v.toNat / 0x80 * 0x80 := by
  have := v.isLt
  simp only [rraByte, BitVec.toNat_append]
  rw [← Nat.shiftLeft_add_eq_or_of_lt (BitVec.isLt _), Nat.shiftLeft_eq]
  simp [BitVec.extractLsb'_toNat, Nat.shiftRight_eq_div_pow]
  omega

theorem toNat_swapBytes (v : Word) : (swapBytes v).toNat = v.toNat % 256 * 256 + v.toNat / 256 := by
  simp only [swapBytes, BitVec.toNat_append]
  rw [← Nat.shiftLeft_add_eq_or_of_lt (hiByte _).isLt, Nat.shiftLeft_eq, toNat_loByte, toNat_hiByte]

/-- The flags of RRC and RRA, each as a comparison of numbers. -/
theorem rotateFlags_eq {w : Nat} (v r : BitVec (w + 1)) :
    rotateFlags v r = { z := decide (r.toNat = 0), c := decide (v.toNat % 2 = 1), n := decide (2 ^ w ≤ r.toNat), v := false } := by
  unfold rotateFlags
  congr 1
  · rw [Bool.eq_iff_iff]
    simp [BitVec.toNat_eq]
  · simp [BitVec.getLsbD, Nat.testBit_zero]
  · rw [BitVec.msb_eq_decide]
    rfl

end Sys2Proof.Machine
end

