-- ==== Sys2Proof/Laws/Operands.lean ====
section
/-! SUPPORT. What the operand load and the operand phase of the resolver can do (40_single_operand.md R75), said once:
later proofs cite these and do not unfold the repair. -/

namespace Sys2Proof.Machine

open Sys2Proof.Safety

/-- A repair in range gives the sentinel, stored at its address. -/
theorem repairLoad_inRange {s : State} {a : Word} (ho : isOdd a = false) (hr : inRangeWord s.cfg a = true) :
    repairLoad s a = .ok { value := sentinel, address := a, state := s.setWord a sentinel } := by
  have hl : loadWord (s.setWord a sentinel) a = .ok sentinel := loadWord_setWord_same s sentinel hr
  simp [repairLoad, memWriteWord, memReadWord, storeWord, ho, hr, hl]

/-- What a repair can do: it succeeds with the sentinel, or stops with the state untouched. -/
theorem repairLoad_cases (s : State) (a : Word) :
    (isOdd a = true ∧ repairLoad s a = .error (endMisaligned s)) ∨
    (isOdd a = false ∧ inRangeWord s.cfg a = false ∧ repairLoad s a = .error (endFatal .outOfRange s)) ∨
    (isOdd a = false ∧ inRangeWord s.cfg a = true ∧
      repairLoad s a = .ok { value := sentinel, address := a, state := s.setWord a sentinel }) := by
  rcases memWriteWord_cases s a sentinel with ⟨ho, h⟩ | ⟨ho, hr, h⟩ | ⟨ho, hr, -⟩
  · exact .inl ⟨ho, by simp [repairLoad, h]⟩
  · exact .inr (.inl ⟨ho, hr, by simp [repairLoad, h]⟩)
  · exact .inr (.inr ⟨ho, hr, repairLoad_inRange ho hr⟩)

/-- What an operand load can do: it succeeds at once, it succeeds after the repair at an address in range, or it stops with
the state untouched. -/
theorem operandLoad_cases (s : State) (ea : Word) (om : Bool) :
    (∃ w, loadWord s ea = .ok w ∧ operandLoad s ea om = .ok { value := w, address := ea, state := s }) ∨
    (∃ k a, loadWord s ea = .error k ∧ repairAddress s.cfg ea om k = some a ∧ inRangeWord s.cfg a = true ∧
      operandLoad s ea om = .ok { value := sentinel, address := a, state := s.setWord a sentinel }) ∨
    operandLoad s ea om = .error (endMisaligned s) ∨
    operandLoad s ea om = .error (endFatal .outOfRange s) := by
  cases ho : isOdd ea
  · cases hl : loadWord s ea with
    | ok w => exact .inl ⟨w, rfl, by simp [operandLoad, ho, hl]⟩
    | error k =>
      have hk : k ≠ .other := fun h => loadWord_ne_other s ea (h ▸ hl)
      obtain ⟨a, ha⟩ : ∃ a, repairAddress s.cfg ea om k = some a := by
        cases k
        · exact ⟨ea, rfl⟩
        · cases om
          · exact ⟨ea, rfl⟩
          · exact ⟨ea + s.cfg.memBase, rfl⟩
        · exact absurd rfl hk
      have heq : operandLoad s ea om = repairLoad s a := by simp [operandLoad, ho, hl, ha]
      rcases repairLoad_cases s a with ⟨-, h⟩ | ⟨-, -, h⟩ | ⟨-, hr, h⟩
      · exact .inr (.inr (.inl (heq.trans h)))
      · exact .inr (.inr (.inr (heq.trans h)))
      · exact .inr (.inl ⟨k, a, rfl, ha, hr, heq.trans h⟩)
  · exact .inr (.inr (.inl (by simp [operandLoad, ho])))

/-- What the operand phase of a memory operand can do. -/
theorem loadIntoRegister_cases (s : State) (n : Reg) (ea : Word) (om : Bool) :
    (∃ w, loadWord s ea = .ok w ∧ loadIntoRegister s n ea om = .ok (ea, s.setReg n w)) ∨
    (∃ k a, loadWord s ea = .error k ∧ repairAddress s.cfg ea om k = some a ∧ inRangeWord s.cfg a = true ∧
      loadIntoRegister s n ea om = .ok (a, (s.setWord a sentinel).setReg n sentinel)) ∨
    loadIntoRegister s n ea om = .error (endMisaligned s) ∨
    loadIntoRegister s n ea om = .error (endFatal .outOfRange s) := by
  rcases operandLoad_cases s ea om with ⟨w, hl, h⟩ | ⟨k, a, hl, ha, hr, h⟩ | h | h
  · exact .inl ⟨w, hl, by simp [loadIntoRegister, h]⟩
  · exact .inr (.inl ⟨k, a, hl, ha, hr, by simp [loadIntoRegister, h]⟩)
  · exact .inr (.inr (.inl (by simp [loadIntoRegister, h])))
  · exact .inr (.inr (.inr (by simp [loadIntoRegister, h])))

@[simp] theorem dumpIndirect_cfg (k : SingleOp) (a : Word) (s : State) : (dumpIndirect k a s).cfg = s.cfg := by
  unfold dumpIndirect; split <;> rfl
@[simp] theorem dumpIndirect_regs (k : SingleOp) (a : Word) (s : State) : (dumpIndirect k a s).regs = s.regs := by
  unfold dumpIndirect; split <;> rfl
@[simp] theorem dumpIndirect_flags (k : SingleOp) (a : Word) (s : State) : (dumpIndirect k a s).flags = s.flags := by
  unfold dumpIndirect; split <;> rfl
@[simp] theorem dumpIndirect_mem (k : SingleOp) (a : Word) (s : State) : (dumpIndirect k a s).mem = s.mem := by
  unfold dumpIndirect; split <;> rfl
@[simp] theorem dumpIndirect_pc (k : SingleOp) (a : Word) (s : State) : (dumpIndirect k a s).pc = s.pc := by
  unfold dumpIndirect; split <;> rfl
@[simp] theorem dumpIndirect_reg (k : SingleOp) (a : Word) (s : State) (m : Reg) :
    (dumpIndirect k a s).reg m = s.reg m := by
  unfold dumpIndirect; split <;> rfl
@[simp] theorem dumpIndirect_byte (k : SingleOp) (a : Word) (s : State) (i : Nat) :
    (dumpIndirect k a s).byte i = s.byte i := by
  unfold dumpIndirect; split <;> rfl
@[simp] theorem inv_dumpIndirect (k : SingleOp) (a : Word) (s : State) : Inv (dumpIndirect k a s) ↔ Inv s := by
  unfold dumpIndirect; split <;> rfl

/-- What the operand phase can do, for every operand: it changes nothing but the operand's register, the two bytes of a
repair in range and, for PUSH and CALL, the trace; or it stops with the state untouched. -/
theorem operandPhase_cases (k : SingleOp) (s : State) (o : Operand) :
    (∃ t, operandPhase k s o = .ok t ∧ t.cfg = s.cfg ∧ t.flags = s.flags ∧ t.pc = s.pc ∧
      (∀ m, m ≠ o.reg → t.reg m = s.reg m) ∧
      ((repairSite s o = none ∧ t.mem = s.mem) ∨
        (∃ a, repairSite s o = some a ∧ inRangeWord s.cfg a = true ∧ t.mem = (s.setWord a sentinel).mem)) ∧
      (k ≠ .push → k ≠ .call → t.trace = s.trace)) ∨
    operandPhase k s o = .error (endMisaligned s) ∨
    operandPhase k s o = .error (endFatal .outOfRange s) := by
  cases o with
  | register n =>
    exact .inl ⟨s, rfl, rfl, rfl, rfl, fun _ _ => rfl, .inl ⟨rfl, rfl⟩, fun _ _ => rfl⟩
  | indexed n x =>
    rcases loadIntoRegister_cases s n (indexedAddress s.cfg (s.reg n) x).1 (indexedAddress s.cfg (s.reg n) x).2 with
      ⟨w, hl, h⟩ | ⟨kk, a, hl, ha, hr, h⟩ | h | h
    · refine .inl ⟨s.setReg n w, by simp [operandPhase, h], rfl, rfl, rfl, fun m hm => s.reg_setReg_ne w hm,
        .inl ⟨by simp [repairSite, effectiveAddress, hl], rfl⟩, fun _ _ => rfl⟩
    · refine .inl ⟨(s.setWord a sentinel).setReg n sentinel, by simp [operandPhase, h], rfl, rfl, rfl,
        fun m hm => State.reg_setReg_ne _ _ hm, .inr ⟨a, by simp [repairSite, effectiveAddress, hl, ha], hr, rfl⟩,
        fun _ _ => rfl⟩
    · exact .inr (.inl (by simp [operandPhase, h]))
    · exact .inr (.inr (by simp [operandPhase, h]))
  | indirect n =>
    rcases loadIntoRegister_cases s n (s.reg n) true with ⟨w, hl, h⟩ | ⟨kk, a, hl, ha, hr, h⟩ | h | h
    · refine .inl ⟨dumpIndirect k (s.reg n) (s.setReg n w), by simp [operandPhase, h], by simp, by simp, by simp,
        fun m hm => by simpa using s.reg_setReg_ne w hm,
        .inl ⟨by simp [repairSite, effectiveAddress, hl], by simp⟩, fun hp hc => by simp [dumpIndirect, hp, hc]⟩
    · refine .inl ⟨dumpIndirect k a ((s.setWord a sentinel).setReg n sentinel), by simp [operandPhase, h], by simp,
        by simp, by simp, fun m hm => by simpa using State.reg_setReg_ne (s.setWord a sentinel) sentinel hm,
        .inr ⟨a, by simp [repairSite, effectiveAddress, hl, ha], hr, by simp⟩,
        fun hp hc => by simp [dumpIndirect, hp, hc]⟩
    · exact .inr (.inl (by simp [operandPhase, h]))
    · exact .inr (.inr (by simp [operandPhase, h]))
  | autoincrement n =>
    rcases loadIntoRegister_cases s n (s.reg n) true with ⟨w, hl, h⟩ | ⟨kk, a, hl, ha, hr, h⟩ | h | h
    · refine .inl ⟨s.setReg n w, by simp [operandPhase, h], rfl, rfl, rfl, fun m hm => s.reg_setReg_ne w hm,
        .inl ⟨by simp [repairSite, effectiveAddress, hl], rfl⟩, fun _ _ => rfl⟩
    · refine .inl ⟨(s.setWord a sentinel).setReg n sentinel, by simp [operandPhase, h], rfl, rfl, rfl,
        fun m hm => State.reg_setReg_ne _ _ hm, .inr ⟨a, by simp [repairSite, effectiveAddress, hl, ha], hr, rfl⟩,
        fun _ _ => rfl⟩
    · exact .inr (.inl (by simp [operandPhase, h]))
    · exact .inr (.inr (by simp [operandPhase, h]))

/-! ### The increment phase -/

@[simp] theorem incrementPhase_cfg (bw : Bool) (s : State) (o : Operand) : (incrementPhase bw s o).cfg = s.cfg := by
  cases o <;> rfl
@[simp] theorem incrementPhase_flags (bw : Bool) (s : State) (o : Operand) :
    (incrementPhase bw s o).flags = s.flags := by
  cases o <;> rfl
@[simp] theorem incrementPhase_mem (bw : Bool) (s : State) (o : Operand) : (incrementPhase bw s o).mem = s.mem := by
  cases o <;> rfl
@[simp] theorem incrementPhase_pc (bw : Bool) (s : State) (o : Operand) : (incrementPhase bw s o).pc = s.pc := by
  cases o <;> rfl
@[simp] theorem incrementPhase_trace (bw : Bool) (s : State) (o : Operand) :
    (incrementPhase bw s o).trace = s.trace := by
  cases o <;> rfl
@[simp] theorem incrementPhase_byte (bw : Bool) (s : State) (o : Operand) (i : Nat) :
    (incrementPhase bw s o).byte i = s.byte i := by
  cases o <;> rfl
@[simp] theorem inv_incrementPhase (bw : Bool) (s : State) (o : Operand) : Inv (incrementPhase bw s o) ↔ Inv s := by
  cases o <;> exact Iff.rfl

/-- The increment touches the operand's register only. -/
theorem incrementPhase_reg_ne (bw : Bool) (s : State) {o : Operand} {m : Reg} (h : m ≠ o.reg) :
    (incrementPhase bw s o).reg m = s.reg m := by
  cases o with
  | register n => rfl
  | indexed n x => rfl
  | indirect n => rfl
  | autoincrement n => exact State.reg_setReg_ne s _ h

end Sys2Proof.Machine
end

