-- ==== Sys2Proof/Laws/Resolver.lean ====
section
/-! SUPPORT. What the resolver, the reference mutators and a step can do, said once. -/

namespace Sys2Proof.Machine

open Sys2Proof.Safety

@[simp] theorem State.setFlags_self (s : State) : s.setFlags s.flags = s := rfl

@[simp] theorem Stop.outcome_fault (f : Fault) : (Stop.fault f).outcome = .fault f := rfl
@[simp] theorem Stop.outcome_refused (r : Refusal) : (Stop.refused r).outcome = .refused r := rfl

/-- An ended step has no next state. -/
theorem Stop.outcome_ne_next (e : Stop) (t : State) : e.outcome ≠ .next t := by
  cases e <;> nofun

/-- Every stop of the machine's operations leaves a state. -/
theorem endFatal_outcome (k : FailKind) (s : State) : (endFatal k s).outcome = .fault (.fatal k s) := rfl
theorem endMisaligned_outcome (s : State) : (endMisaligned s).outcome = .refused (.misaligned s) := rfl
theorem endNoResult_outcome (r : NoResultReason) (s : State) : (endNoResult r s).outcome = .fault (.noResult r s) := rfl
theorem endReti_outcome (s : State) : (endReti s).outcome = .fault (.retiPlaceholder s) := rfl

/-! ### The resolver -/

/-- A resolver that goes on passed its operand phase, its mutator and its increment, in this order. -/
theorem resolve_next {M : Mut} {k : SingleOp} {bw : Bool} {o : Operand} {s t : State}
    (h : resolve M k bw o s = .next t) :
    ∃ p u, operandPhase k s o = .ok p ∧ M k o.reg (singleWord k bw o) (linearSuccessor s o) p = .ok u ∧
      t = (incrementPhase bw u o).setPc
        (if k = .call then (incrementPhase bw u o).reg 0 else linearSuccessor s o) := by
  unfold resolve at h
  split at h
  · exact absurd h (Stop.outcome_ne_next _ _)
  · next p hp =>
    split at h
    · exact absurd h (Stop.outcome_ne_next _ _)
    · next u hu =>
      refine ⟨p, u, hp, hu, ?_⟩
      unfold resolverResult at h
      injection h with h
      exact h.symm

theorem resolve_of_ok {M : Mut} {k : SingleOp} {bw : Bool} {o : Operand} {s p u : State}
    (hp : operandPhase k s o = .ok p) (hu : M k o.reg (singleWord k bw o) (linearSuccessor s o) p = .ok u) :
    resolve M k bw o s = resolverResult k (linearSuccessor s o) (incrementPhase bw u o) := by
  simp [resolve, hp, hu]

theorem resolve_of_operand_error {M : Mut} {k : SingleOp} {bw : Bool} {o : Operand} {s : State} {e : Stop}
    (hp : operandPhase k s o = .error e) : resolve M k bw o s = e.outcome := by
  simp [resolve, hp]

theorem resolve_of_mut_error {M : Mut} {k : SingleOp} {bw : Bool} {o : Operand} {s p : State} {e : Stop}
    (hp : operandPhase k s o = .ok p) (hu : M k o.reg (singleWord k bw o) (linearSuccessor s o) p = .error e) :
    resolve M k bw o s = e.outcome := by
  simp [resolve, hp, hu]

/-! ### The reference mutators -/

theorem mutRrc_word {w : Word} (hb : byteFlag w = false) (n : Reg) (lin : Word) (s : State) :
    mutRrc n w lin s = .ok ((s.setReg n (rrcWord s.flags.c (s.reg n))).setFlags
      (rotateFlags (s.reg n) (rrcWord s.flags.c (s.reg n)))) := by
  simp [mutRrc, hb]

theorem mutRrc_byte {w : Word} (hb : byteFlag w = true) (n : Reg) (lin : Word) (s : State) :
    mutRrc n w lin s = .ok ((s.setReg n (zeroExtendByte (rrcByte s.flags.c (loByte (s.reg n))))).setFlags
      (rotateFlags (loByte (s.reg n)) (rrcByte s.flags.c (loByte (s.reg n))))) := by
  simp [mutRrc, hb]

theorem mutRra_word {w : Word} (hb : byteFlag w = false) (n : Reg) (lin : Word) (s : State) :
    mutRra n w lin s = .ok ((s.setReg n (rraWord (s.reg n))).setFlags (rotateFlags (s.reg n) (rraWord (s.reg n)))) := by
  simp [mutRra, hb]

theorem mutRra_byte {w : Word} (hb : byteFlag w = true) (n : Reg) (lin : Word) (s : State) :
    mutRra n w lin s = .ok ((s.setReg n (zeroExtendByte (rraByte (loByte (s.reg n))))).setFlags
      (rotateFlags (loByte (s.reg n)) (rraByte (loByte (s.reg n))))) := by
  simp [mutRra, hb]

/-- RRC, SWPB, RRA and SXT write the operand's register and flags, and do not stop. -/
theorem refMut_register_only {k : SingleOp} (hp : k ≠ .push) (hc : k ≠ .call) (n : Reg) (w lin : Word) (s : State) :
    ∃ r f, refMut k n w lin s = .ok ((s.setReg n r).setFlags f) ∧ (k = .swpb → f = s.flags) := by
  cases k with
  | rrc =>
    cases hb : byteFlag w
    · exact ⟨_, _, mutRrc_word hb n lin s, nofun⟩
    · exact ⟨_, _, mutRrc_byte hb n lin s, nofun⟩
  | swpb => exact ⟨swapBytes (s.reg n), s.flags, rfl, fun _ => rfl⟩
  | rra =>
    cases hb : byteFlag w
    · exact ⟨_, _, mutRra_word hb n lin s, nofun⟩
    · exact ⟨_, _, mutRra_byte hb n lin s, nofun⟩
  | sxt => exact ⟨signExtendByte (s.reg n), signExtendFlags (signExtendByte (s.reg n)), rfl, nofun⟩
  | push => exact absurd rfl hp
  | call => exact absurd rfl hc

/-! ### The stack -/

/-- What a push can do, x[1] having moved. -/
theorem pushOnStack_cases (b : Bool) (sp v : Word) (s : State) :
    (b = false ∧ isOdd sp = true ∧ pushOnStack b sp v s = .error (endMisaligned (s.setReg 1 sp))) ∨
    (pushOnStack b sp v s = .error (endFatal .outOfRange (s.setReg 1 sp)) ∧ (b = false → inRangeWord s.cfg sp = false)) ∨
    (b = false ∧ isOdd sp = false ∧ inRangeWord s.cfg sp = true ∧
      pushOnStack b sp v s = .ok ((s.setReg 1 sp).setWord sp v)) ∨
    (b = true ∧ inRangeByte s.cfg sp.toNat = true ∧
      pushOnStack b sp v s = .ok ((s.setReg 1 sp).setByte sp.toNat (loByte v))) := by
  cases b
  · rcases memWriteWord_cases (s.setReg 1 sp) sp v with ⟨ho, h⟩ | ⟨-, hr, h⟩ | ⟨ho, hr, h⟩
    · exact .inl ⟨rfl, ho, by simp [pushOnStack, h]⟩
    · exact .inr (.inl ⟨by simp [pushOnStack, h], fun _ => hr⟩)
    · exact .inr (.inr (.inl ⟨rfl, ho, hr, by simp [pushOnStack, h]⟩))
  · rcases memWriteByte_cases (s.setReg 1 sp) sp (loByte v) with ⟨-, h⟩ | ⟨hr, h⟩
    · exact .inr (.inl ⟨by simp [pushOnStack, h], nofun⟩)
    · exact .inr (.inr (.inr ⟨rfl, hr, by simp [pushOnStack, h]⟩))

/-- A push that goes on: x[1] points at what was stored. -/
theorem pushOnStack_ok {b : Bool} {sp v : Word} {s t : State} (h : pushOnStack b sp v s = .ok t) :
    t.cfg = s.cfg ∧ t.pc = s.pc ∧ t.trace = s.trace ∧ (Safety.Inv s → Safety.Inv t) ∧ t.reg 1 = sp ∧
      OnStack t v ∧ (b = false → loadWord t sp = .ok v) := by
  rcases pushOnStack_cases b sp v s with ⟨-, -, h'⟩ | ⟨h', -⟩ | ⟨rfl, -, hr, h'⟩ | ⟨rfl, hr, h'⟩ <;> rw [h'] at h <;>
    cases h
  · have hl : loadWord ((s.setReg 1 sp).setWord sp v) sp = .ok v := loadWord_setWord_same (s.setReg 1 sp) v hr
    have h1 : ((s.setReg 1 sp).setWord sp v).reg 1 = sp := by simp
    exact ⟨rfl, rfl, rfl, fun hi => inv_setWord (s := s.setReg 1 sp) v hi hr, h1, .inl (by rw [h1, hl]), fun _ => hl⟩
  · have h1 : ((s.setReg 1 sp).setByte sp.toNat (loByte v)).reg 1 = sp := by simp
    exact ⟨rfl, rfl, rfl, fun hi => inv_setByte (s := s.setReg 1 sp) _ hi hr, h1, .inr (by rw [h1]; simp), nofun⟩

/-- A push that stops, x[1] having moved and nothing else. -/
theorem pushOnStack_error {b : Bool} {sp v : Word} {s : State} {e : Stop} (h : pushOnStack b sp v s = .error e) :
    e = endMisaligned (s.setReg 1 sp) ∨ e = endFatal .outOfRange (s.setReg 1 sp) := by
  rcases pushOnStack_cases b sp v s with ⟨-, -, h'⟩ | ⟨h', -⟩ | ⟨-, -, -, h'⟩ | ⟨-, -, h'⟩ <;> rw [h'] at h <;> cases h
  · exact .inl rfl
  · exact .inr rfl

/-- What CALL can do on the stack. -/
theorem callOnStack_cases (sp ret v : Word) (s : State) :
    (isOdd sp = true ∧ callOnStack sp ret v s = .error (endMisaligned (s.setReg 1 sp))) ∨
    (isOdd sp = false ∧ inRangeWord s.cfg sp = false ∧
      callOnStack sp ret v s = .error (endFatal .outOfRange (s.setReg 1 sp))) ∨
    (isOdd sp = false ∧ inRangeWord s.cfg sp = true ∧
      callOnStack sp ret v s = .ok (((s.setReg 1 sp).setWord sp ret).setReg 0 v)) := by
  rcases memWriteWord_cases (s.setReg 1 sp) sp ret with ⟨ho, h⟩ | ⟨ho, hr, h⟩ | ⟨ho, hr, h⟩
  · exact .inl ⟨ho, by simp [callOnStack, pushOnStack, h]⟩
  · exact .inr (.inl ⟨ho, hr, by simp [callOnStack, pushOnStack, h]⟩)
  · exact .inr (.inr ⟨ho, hr, by simp [callOnStack, pushOnStack, h]⟩)

/-- A CALL that goes on: x[1] points at the return address, and x[0] is the target. -/
theorem callOnStack_ok {sp ret v : Word} {s t : State} (h : callOnStack sp ret v s = .ok t) :
    t.cfg = s.cfg ∧ t.pc = s.pc ∧ t.trace = s.trace ∧ (Safety.Inv s → Safety.Inv t) ∧ t.reg 1 = sp ∧
      loadWord t (t.reg 1) = .ok ret ∧ t.reg 0 = v := by
  rcases callOnStack_cases sp ret v s with ⟨-, h'⟩ | ⟨-, -, h'⟩ | ⟨-, hr, h'⟩ <;> rw [h'] at h <;> cases h
  have h1 : (((s.setReg 1 sp).setWord sp ret).setReg 0 v).reg 1 = sp := by
    rw [State.reg_setReg_ne _ _ (by decide), State.reg_setWord, State.reg_setReg_same]
  refine ⟨rfl, rfl, rfl, fun hi => inv_setWord (s := s.setReg 1 sp) ret hi hr, h1, ?_, by simp⟩
  rw [h1]
  exact loadWord_setWord_same (s.setReg 1 sp) ret hr

/-- A CALL that stops, x[1] having moved and nothing else. -/
theorem callOnStack_error {sp ret v : Word} {s : State} {e : Stop} (h : callOnStack sp ret v s = .error e) :
    e = endMisaligned (s.setReg 1 sp) ∨ e = endFatal .outOfRange (s.setReg 1 sp) := by
  rcases callOnStack_cases sp ret v s with ⟨-, h'⟩ | ⟨-, -, h'⟩ | ⟨-, -, h'⟩ <;> rw [h'] at h <;> cases h
  · exact .inl rfl
  · exact .inr rfl

/-- What the reference PUSH can do, at its stack slot with x[1] already moved there. -/
theorem mutPush_cases (n : Reg) (w lin : Word) (s : State) :
    (byteFlag w = false ∧ isOdd (stackSlot s) = true ∧
      mutPush n w lin s = .error (endMisaligned (s.setReg 1 (stackSlot s)))) ∨
    (mutPush n w lin s = .error (endFatal .outOfRange (s.setReg 1 (stackSlot s)))) ∨
    (byteFlag w = false ∧ isOdd (stackSlot s) = false ∧ inRangeWord s.cfg (stackSlot s) = true ∧
      mutPush n w lin s = .ok ((s.setReg 1 (stackSlot s)).setWord (stackSlot s) (s.reg n))) ∨
    (byteFlag w = true ∧ inRangeByte s.cfg (stackSlot s).toNat = true ∧
      mutPush n w lin s = .ok ((s.setReg 1 (stackSlot s)).setByte (stackSlot s).toNat (loByte (s.reg n)))) :=
  (pushOnStack_cases (byteFlag w) (stackSlot s) (s.reg n) s).imp_right (Or.imp_left And.left)

/-- What the reference CALL can do, at its stack slot with x[1] already moved there. -/
theorem mutCall_cases (n : Reg) (w lin : Word) (s : State) :
    (isOdd (stackSlot s) = true ∧ mutCall n w lin s = .error (endMisaligned (s.setReg 1 (stackSlot s)))) ∨
    (isOdd (stackSlot s) = false ∧ inRangeWord s.cfg (stackSlot s) = false ∧
      mutCall n w lin s = .error (endFatal .outOfRange (s.setReg 1 (stackSlot s)))) ∨
    (isOdd (stackSlot s) = false ∧ inRangeWord s.cfg (stackSlot s) = true ∧
      mutCall n w lin s = .ok (((s.setReg 1 (stackSlot s)).setWord (stackSlot s) lin).setReg 0 (s.reg n))) :=
  callOnStack_cases (stackSlot s) lin (s.reg n) s

/-! ### Fetch and step -/

/-- What an opcode fetch can do. -/
theorem fetchOpcode_cases (s : State) :
    (isOdd s.pc = true ∧ fetchOpcode s = .error (endMisaligned s)) ∨
    (isOdd s.pc = false ∧ (∃ k, loadWord s s.pc = .error k) ∧
      fetchOpcode s = .error (endNoResult .fetchUnreadable s)) ∨
    (isOdd s.pc = false ∧ ∃ w, loadWord s s.pc = .ok w ∧ fetchOpcode s = .ok w) := by
  cases ho : isOdd s.pc
  · cases hl : loadWord s s.pc with
    | ok w => exact .inr (.inr ⟨rfl, w, rfl, by simp [fetchOpcode, ho, hl]⟩)
    | error k =>
      refine .inr (.inl ⟨rfl, ⟨k, rfl⟩, ?_⟩)
      cases k
      · simp [fetchOpcode, ho, hl]
      · simp [fetchOpcode, ho, hl]
      · exact absurd hl (loadWord_ne_other s s.pc)
  · exact .inl ⟨rfl, by simp [fetchOpcode, ho]⟩

/-- A fetch in the vector region gives the stored word, undecoded. -/
theorem fetch_vector {s : State} {w : Word} (hw : fetchOpcode s = .ok w) (hv : inVectorRegion s.pc = true) :
    fetch s = .ok (.vector w) := by
  simp [fetch, hw, hv]

/-- A fetch below the vector region decodes the word with its extension word. -/
theorem fetch_instr {s : State} {w x : Word} (hw : fetchOpcode s = .ok w) (hv : inVectorRegion s.pc = false)
    (hx : fetchExtension s w = .ok x) : fetch s = .ok (.instr (decodeWords w x)) := by
  simp [fetch, hw, hv, hx]

/-- A step that goes on is the vector shortcut or the handler of the fetched instruction. -/
theorem step_next {s t : State} (h : step s = .next t) :
    (∃ w, fetch s = .ok (.vector w) ∧ t = s.setPc w) ∨ (∃ i, fetch s = .ok (.instr i) ∧ exec i s = .next t) := by
  unfold step at h
  split at h
  · exact absurd h (Stop.outcome_ne_next _ _)
  · next w hw =>
    injection h with h
    exact .inl ⟨w, hw, h.symm⟩
  · next i hi => exact .inr ⟨i, hi, h⟩

theorem step_of_instr {s : State} {i : Instr} (h : fetch s = .ok (.instr i)) : step s = exec i s := by
  simp [step, h]

theorem step_of_vector {s : State} {w : Word} (h : fetch s = .ok (.vector w)) : step s = .next (s.setPc w) := by
  simp [step, h]

theorem step_of_error {s : State} {e : Stop} (h : fetch s = .error e) : step s = e.outcome := by
  simp [step, h]

end Sys2Proof.Machine
end

