-- ==== Sys2Proof/Laws/OpenMutators.lean ====
section
/-! SUPPORT. What the port operations of a mutator can do, one by one and in a row, whatever they are; the choice of Mut. -/

namespace Sys2Proof.Machine

open Sys2Proof.Safety

theorem mutOf_reference {c : Config} (h : c.mutators = .reference) : mutOf c = refMut := by
  simp [mutOf, h]

theorem mutOf_other {c : Config} {k : Nat} (h : c.mutators = .other k) : mutOf c = openMut k := by
  simp [mutOf, h]

/-- What a byte read can do. -/
theorem memReadByte_cases (s : State) (a : Word) :
    (∃ k, k ≠ .other ∧ memReadByte s a = .error (endFatal k s)) ∨ ∃ b, memReadByte s a = .ok b := by
  unfold memReadByte loadByte
  cases hr : inRangeByte s.cfg a.toNat
  · exact .inl ⟨.outOfRange, nofun, by simp⟩
  · cases hb : s.byte a.toNat with
    | none => exact .inl ⟨.uninitialized, nofun, by simp⟩
    | some b => exact .inr ⟨b, by simp⟩

/-- What one operation can do: it goes on, with parameters, pc and trace as they were and the invariant kept, or it stops
at the state it found. -/
theorem runAction_cases (s : State) (x : MutAction) :
    (∃ t, runAction s x = .ok t ∧ t.cfg = s.cfg ∧ t.pc = s.pc ∧ t.trace = s.trace ∧ (Safety.Inv s → Safety.Inv t)) ∨
    runAction s x = .error (endMisaligned s) ∨ ∃ k, k ≠ .other ∧ runAction s x = .error (endFatal k s) := by
  cases x with
  | setReg n v => exact .inl ⟨_, rfl, rfl, rfl, rfl, id⟩
  | setFlags f => exact .inl ⟨_, rfl, rfl, rfl, rfl, id⟩
  | loadWord a =>
    rcases memReadWord_cases s a with ⟨-, h⟩ | ⟨-, k, hk, -, h⟩ | ⟨-, w, -, h⟩
    · exact .inr (.inl (by simp [runAction, h]))
    · exact .inr (.inr ⟨k, hk, by simp [runAction, h]⟩)
    · exact .inl ⟨s, by simp [runAction, h], rfl, rfl, rfl, id⟩
  | loadByte a =>
    rcases memReadByte_cases s a with ⟨k, hk, h⟩ | ⟨b, h⟩
    · exact .inr (.inr ⟨k, hk, by simp [runAction, h]⟩)
    · exact .inl ⟨s, by simp [runAction, h], rfl, rfl, rfl, id⟩
  | storeWord a w =>
    rcases memWriteWord_cases s a w with ⟨-, h⟩ | ⟨-, -, h⟩ | ⟨-, hr, h⟩
    · exact .inr (.inl h)
    · exact .inr (.inr ⟨.outOfRange, nofun, h⟩)
    · exact .inl ⟨_, h, rfl, rfl, rfl, fun hi => inv_setWord w hi hr⟩
  | storeByte a b =>
    rcases memWriteByte_cases s a b with ⟨-, h⟩ | ⟨hr, h⟩
    · exact .inr (.inr ⟨.outOfRange, nofun, h⟩)
    · exact .inl ⟨_, h, rfl, rfl, rfl, fun hi => inv_setByte b hi hr⟩

/-- Operations that all go on change registers, flags and memory only, and keep the invariant. -/
theorem runActions_ok {xs : List MutAction} {s t : State} (h : runActions s xs = .ok t) :
    t.cfg = s.cfg ∧ t.pc = s.pc ∧ t.trace = s.trace ∧ (Safety.Inv s → Safety.Inv t) := by
  induction xs generalizing s with
  | nil =>
    cases h
    exact ⟨rfl, rfl, rfl, id⟩
  | cons x xs ih =>
    rcases runAction_cases s x with ⟨u, hu, h1, h2, h3, h4⟩ | hu | ⟨k, -, hu⟩ <;> simp only [runActions, hu] at h
    · obtain ⟨g1, g2, g3, g4⟩ := ih h
      exact ⟨g1.trans h1, g2.trans h2, g3.trans h3, fun hi => g4 (h4 hi)⟩
    · cases h
    · cases h

/-- Operations that stop do so at a state that the ones before reached, with the invariant kept. -/
theorem runActions_error {xs : List MutAction} {s : State} {e : Stop} (h : runActions s xs = .error e) :
    ∃ t, (Safety.Inv s → Safety.Inv t) ∧ (e = endMisaligned t ∨ ∃ k, k ≠ .other ∧ e = endFatal k t) := by
  induction xs generalizing s with
  | nil => cases h
  | cons x xs ih =>
    rcases runAction_cases s x with ⟨u, hu, -, -, -, h4⟩ | hu | ⟨k, hk, hu⟩ <;> simp only [runActions, hu] at h
    · obtain ⟨t, ht, he⟩ := ih h
      exact ⟨t, fun hi => ht (h4 hi), he⟩
    · cases h
      exact ⟨s, id, .inl rfl⟩
    · cases h
      exact ⟨s, id, .inr ⟨k, hk, rfl⟩⟩

/-! ### PUSH and CALL under an unknown Mut -/

theorem MutPlan.toNat_amount (p : MutPlan) : p.amount.toNat = p.amountLessOne.val + 1 := by
  have := p.amountLessOne.isLt
  simp [MutPlan.amount]
  omega

theorem MutPlan.amount_ne_zero (p : MutPlan) : p.amount ≠ 0 := fun h => by
  have := congrArg BitVec.toNat h
  rw [p.toNat_amount] at this
  simp at this

/-- The effect on the stack, where it goes on: parameters, pc and trace as they were, the invariant kept, and what PUSH and
CALL leave. -/
theorem stackEffect_ok {p : MutPlan} {v sp : Word} {s t : State} {k : SingleOp} (h : stackEffect p v sp s k = .ok t) :
    t.cfg = s.cfg ∧ t.pc = s.pc ∧ t.trace = s.trace ∧ (Safety.Inv s → Safety.Inv t) ∧
      (k = .push → t.reg 1 = sp - p.amount ∧ OnStack t v) ∧
      (k = .call → t.reg 1 = sp - p.amount ∧ loadWord t (t.reg 1) = .ok p.returnAddress ∧ t.reg 0 = v) := by
  cases k with
  | push =>
    obtain ⟨h1, h2, h3, h4, h5, h6⟩ := pushOnStack_ok h
    exact ⟨h1, h2, h3, h4, fun _ => ⟨h5, h6.1⟩, nofun⟩
  | call =>
    obtain ⟨h1, h2, h3, h4, h5, h6, h7⟩ := callOnStack_ok h
    exact ⟨h1, h2, h3, h4, nofun, fun _ => ⟨h5, h6, h7⟩⟩
  | _ =>
    cases h
    exact ⟨rfl, rfl, rfl, id, nofun, nofun⟩

/-- The effect on the stack, where it stops: x[1] has moved, and nothing else. -/
theorem stackEffect_error {p : MutPlan} {v sp : Word} {s : State} {k : SingleOp} {e : Stop}
    (h : stackEffect p v sp s k = .error e) :
    e = endMisaligned (s.setReg 1 (sp - p.amount)) ∨ e = endFatal .outOfRange (s.setReg 1 (sp - p.amount)) := by
  cases k with
  | push => exact pushOnStack_error h
  | call => exact callOnStack_error h
  | _ => cases h

/-- What a plan that goes on did: every clause of the contract of Mut, for whatever plan. -/
theorem runPlan_ok {p : MutPlan} {k : SingleOp} {n : Reg} {s t : State} (h : runPlan p k n s = .ok t) :
    t.cfg = s.cfg ∧ t.pc = s.pc ∧ t.trace = s.trace ∧ (Safety.Inv s → Safety.Inv t) ∧
      (k = .push → t.reg 1 = s.reg 1 - p.amount ∧ OnStack t (s.reg n)) ∧
      (k = .call → t.reg 1 = s.reg 1 - p.amount ∧ loadWord t (t.reg 1) = .ok p.returnAddress ∧ t.reg 0 = s.reg n) := by
  unfold runPlan at h
  split at h
  · cases h
  · next u hu =>
    obtain ⟨h1, h2, h3, h4⟩ := runActions_ok hu
    obtain ⟨g1, g2, g3, g4, g5, g6⟩ := stackEffect_ok h
    exact ⟨g1.trans h1, g2.trans h2, g3.trans h3, fun hi => g4 (h4 hi), g5, g6⟩

/-- A plan that stops does so at a state with the invariant kept. -/
theorem runPlan_error {p : MutPlan} {k : SingleOp} {n : Reg} {s : State} {e : Stop} (h : runPlan p k n s = .error e) :
    ∃ t, (Safety.Inv s → Safety.Inv t) ∧ (e = endMisaligned t ∨ ∃ k, k ≠ .other ∧ e = endFatal k t) := by
  unfold runPlan at h
  split at h
  · next hu =>
    cases h
    exact runActions_error hu
  · next u hu =>
    obtain ⟨-, -, -, h4⟩ := runActions_ok hu
    rcases stackEffect_error h with rfl | rfl
    · exact ⟨u.setReg 1 (s.reg 1 - p.amount), h4, .inl rfl⟩
    · exact ⟨u.setReg 1 (s.reg 1 - p.amount), h4, .inr ⟨.outOfRange, nofun, rfl⟩⟩

end Sys2Proof.Machine
end

