-- ==== Sys2Proof/Laws/PerInstr.lean ====
section
/-! SUPPORT. Statements made per instruction. `Classified`: the opcode word that the encoder gives a well-formed
instruction is classified as that instruction's row, and its length test agrees with the instruction's operand
(30_encoding.md R50, R55). -/

namespace Sys2Proof.Laws.Classified

/-- The encoded word's row and length are the instruction's. -/
def Statement (i : Instr) : Prop :=
  i.wellFormed = true →
    classify (opcodeWord i) = i.subtype ∧ needsExtension (opcodeWord i) = i.ext?.isSome

theorem of_single {i : Instr} {k : SingleOp} {bw : Bool} {o : Operand} (hw : opcodeWord i = singleWord k bw o)
    (hs : i.subtype = .single k) (ho : i.operand? = some o) : Statement i := by
  intro _
  have hc : classify (opcodeWord i) = .single k := by rw [hw, classify_singleWord]
  refine ⟨by rw [hc, hs], ?_⟩
  rw [Bool.eq_iff_iff, needsExtension_iff, hc, hw, asField_singleWord, Instr.ext?, ho]
  cases o <;> simp [Operand.asBits]

theorem of_other {i : Instr} {t : Subtype} (hw : classify (opcodeWord i) = t) (hs : i.subtype = t)
    (hn : ∀ k, t ≠ .single k) (ho : i.operand? = none) : Statement i := by
  intro _
  refine ⟨by rw [hw, hs], ?_⟩
  rw [Bool.eq_iff_iff, needsExtension_iff, hw, Instr.ext?, ho]
  simp [hn]

theorem rrc (bw : Bool) (o : Operand) : Statement (.rrc bw o) := of_single rfl rfl rfl
theorem swpb (bw : Bool) (o : Operand) : Statement (.swpb bw o) := of_single rfl rfl rfl
theorem rra (bw : Bool) (o : Operand) : Statement (.rra bw o) := of_single rfl rfl rfl
theorem sxt (bw : Bool) (o : Operand) : Statement (.sxt bw o) := of_single rfl rfl rfl
theorem push (bw : Bool) (o : Operand) : Statement (.push bw o) := of_single rfl rfl rfl
theorem call (bw : Bool) (o : Operand) : Statement (.call bw o) := of_single rfl rfl rfl
theorem reti : Statement .reti := of_other classify_reti rfl nofun rfl
theorem jnz (f : BitVec 10) : Statement (.jnz f) := of_other (classify_jumpWord _ f) rfl nofun rfl
theorem jz (f : BitVec 10) : Statement (.jz f) := of_other (classify_jumpWord _ f) rfl nofun rfl
theorem jnc (f : BitVec 10) : Statement (.jnc f) := of_other (classify_jumpWord _ f) rfl nofun rfl
theorem jc (f : BitVec 10) : Statement (.jc f) := of_other (classify_jumpWord _ f) rfl nofun rfl
theorem jn (f : BitVec 10) : Statement (.jn f) := of_other (classify_jumpWord _ f) rfl nofun rfl
theorem jge (f : BitVec 10) : Statement (.jge f) := of_other (classify_jumpWord _ f) rfl nofun rfl
theorem jl (f : BitVec 10) : Statement (.jl f) := of_other (classify_jumpWord _ f) rfl nofun rfl
theorem jmp (f : BitVec 10) : Statement (.jmp f) := of_other (classify_jumpWord _ f) rfl nofun rfl
theorem mov (r : BitVec 12) : Statement (.mov r) := of_other (classify_doubleWord _ r) rfl nofun rfl
theorem add (r : BitVec 12) : Statement (.add r) := of_other (classify_doubleWord _ r) rfl nofun rfl
theorem addc (r : BitVec 12) : Statement (.addc r) := of_other (classify_doubleWord _ r) rfl nofun rfl
theorem subc (r : BitVec 12) : Statement (.subc r) := of_other (classify_doubleWord _ r) rfl nofun rfl
theorem sub (r : BitVec 12) : Statement (.sub r) := of_other (classify_doubleWord _ r) rfl nofun rfl
theorem cmp (r : BitVec 12) : Statement (.cmp r) := of_other (classify_doubleWord _ r) rfl nofun rfl
theorem dadd (r : BitVec 12) : Statement (.dadd r) := of_other (classify_doubleWord _ r) rfl nofun rfl
theorem bit (r : BitVec 12) : Statement (.bit r) := of_other (classify_doubleWord _ r) rfl nofun rfl
theorem bic (r : BitVec 12) : Statement (.bic r) := of_other (classify_doubleWord _ r) rfl nofun rfl
theorem bis (r : BitVec 12) : Statement (.bis r) := of_other (classify_doubleWord _ r) rfl nofun rfl
theorem xor (r : BitVec 12) : Statement (.xor r) := of_other (classify_doubleWord _ r) rfl nofun rfl
theorem and (r : BitVec 12) : Statement (.and r) := of_other (classify_doubleWord _ r) rfl nofun rfl

theorem nop (w : Word) : Statement (.nop w) := fun h =>
  of_other (i := .nop w) (classify_fallback h) rfl nofun rfl h

/-- Every instruction, by its constructor's lemma. -/
theorem ofInstr : ∀ i : Instr, Statement i
  | .rrc bw o => rrc bw o
  | .swpb bw o => swpb bw o
  | .rra bw o => rra bw o
  | .sxt bw o => sxt bw o
  | .push bw o => push bw o
  | .call bw o => call bw o
  | .reti => reti
  | .jnz a => jnz a
  | .jz a => jz a
  | .jnc a => jnc a
  | .jc a => jc a
  | .jn a => jn a
  | .jge a => jge a
  | .jl a => jl a
  | .jmp a => jmp a
  | .mov a => mov a
  | .add a => add a
  | .addc a => addc a
  | .subc a => subc a
  | .sub a => sub a
  | .cmp a => cmp a
  | .dadd a => dadd a
  | .bit a => bit a
  | .bic a => bic a
  | .bis a => bis a
  | .xor a => xor a
  | .and a => and a
  | .nop a => nop a

end Sys2Proof.Laws.Classified
end

