-- ==== Sys2Proof/Laws/Step.lean ====
section
/-! SUPPORT. The shapes of an instruction, of a fetch and of a resolver's outcome, said once: a proof about every step
splits on these and not on the definition of step. -/

namespace Sys2Proof.Machine

open Sys2Proof.Safety

/-! ### Instructions by family -/

theorem exec_ofSingle (k : SingleOp) (bw : Bool) (o : Operand) (s : State) :
    exec (.ofSingle bw o k) s = resolve (mutOf s.cfg) k bw o s := by cases k <;> rfl

theorem exec_ofJump (j : JumpOp) (f : BitVec 10) (s : State) : exec (.ofJump f j) s = branch j f s := by
  cases j <;> rfl

theorem exec_ofDouble (d : DoubleOp) (r : BitVec 12) (s : State) :
    exec (.ofDouble r d) s = .fault (.noResult .doubleOperand s) := by cases d <;> rfl

/-- Every instruction is of one of the five families. -/
theorem instr_cases (i : Instr) :
    (∃ bw o k, i = .ofSingle bw o k) ∨ i = .reti ∨ (∃ f j, i = .ofJump f j) ∨ (∃ r d, i = .ofDouble r d) ∨
      ∃ w, i = .nop w := by
  cases i with
  | rrc bw o => exact .inl ⟨bw, o, .rrc, rfl⟩
  | swpb bw o => exact .inl ⟨bw, o, .swpb, rfl⟩
  | rra bw o => exact .inl ⟨bw, o, .rra, rfl⟩
  | sxt bw o => exact .inl ⟨bw, o, .sxt, rfl⟩
  | push bw o => exact .inl ⟨bw, o, .push, rfl⟩
  | call bw o => exact .inl ⟨bw, o, .call, rfl⟩
  | reti => exact .inr (.inl rfl)
  | jnz f => exact .inr (.inr (.inl ⟨f, .jnz, rfl⟩))
  | jz f => exact .inr (.inr (.inl ⟨f, .jz, rfl⟩))
  | jnc f => exact .inr (.inr (.inl ⟨f, .jnc, rfl⟩))
  | jc f => exact .inr (.inr (.inl ⟨f, .jc, rfl⟩))
  | jn f => exact .inr (.inr (.inl ⟨f, .jn, rfl⟩))
  | jge f => exact .inr (.inr (.inl ⟨f, .jge, rfl⟩))
  | jl f => exact .inr (.inr (.inl ⟨f, .jl, rfl⟩))
  | jmp f => exact .inr (.inr (.inl ⟨f, .jmp, rfl⟩))
  | mov r => exact .inr (.inr (.inr (.inl ⟨r, .mov, rfl⟩)))
  | add r => exact .inr (.inr (.inr (.inl ⟨r, .add, rfl⟩)))
  | addc r => exact .inr (.inr (.inr (.inl ⟨r, .addc, rfl⟩)))
  | subc r => exact .inr (.inr (.inr (.inl ⟨r, .subc, rfl⟩)))
  | sub r => exact .inr (.inr (.inr (.inl ⟨r, .sub, rfl⟩)))
  | cmp r => exact .inr (.inr (.inr (.inl ⟨r, .cmp, rfl⟩)))
  | dadd r => exact .inr (.inr (.inr (.inl ⟨r, .dadd, rfl⟩)))
  | bit r => exact .inr (.inr (.inr (.inl ⟨r, .bit, rfl⟩)))
  | bic r => exact .inr (.inr (.inr (.inl ⟨r, .bic, rfl⟩)))
  | bis r => exact .inr (.inr (.inr (.inl ⟨r, .bis, rfl⟩)))
  | xor r => exact .inr (.inr (.inr (.inl ⟨r, .xor, rfl⟩)))
  | and r => exact .inr (.inr (.inr (.inl ⟨r, .and, rfl⟩)))
  | nop w => exact .inr (.inr (.inr (.inr ⟨w, rfl⟩)))

/-- The decoded instruction is of the row that the word was classified under. -/
theorem subtype_decodeWords (w x : Word) : (decodeWords w x).subtype = classify w := by
  unfold decodeWords
  cases classify w with
  | single k => cases k <;> rfl
  | reti => rfl
  | jump j => cases j <;> rfl
  | double d => cases d <;> rfl
  | nop => rfl

/-! ### The fetch -/

theorem isOdd_add_two {a : Word} (h : isOdd a = false) : isOdd (a + 2#16) = false := by
  simp [isOdd, BitVec.toNat_add] at *
  omega

theorem inVectorRegion_iff (a : Word) : inVectorRegion a = false ↔ a.toNat < 0xFFC0 := by
  simp [inVectorRegion, vectorBoundary]

/-- What a fetch can do. -/
theorem fetch_cases (s : State) :
    (isOdd s.pc = true ∧ fetch s = .error (endMisaligned s)) ∨
    (isOdd s.pc = false ∧ (∃ k, loadWord s s.pc = .error k) ∧ fetch s = .error (endNoResult .fetchUnreadable s)) ∨
    (isOdd s.pc = false ∧ ∃ w, loadWord s s.pc = .ok w ∧ inVectorRegion s.pc = true ∧ fetch s = .ok (.vector w)) ∨
    (isOdd s.pc = false ∧ ∃ w, loadWord s s.pc = .ok w ∧ inVectorRegion s.pc = false ∧ needsExtension w = true ∧
      ∃ k, k ≠ .other ∧ fetch s = .error (endFatal k s)) ∨
    (isOdd s.pc = false ∧ ∃ w x, loadWord s s.pc = .ok w ∧ inVectorRegion s.pc = false ∧
      fetch s = .ok (.instr (decodeWords w x))) := by
  rcases fetchOpcode_cases s with ⟨ho, h⟩ | ⟨ho, hk, h⟩ | ⟨ho, w, hl, h⟩
  · exact .inl ⟨ho, by simp [fetch, h]⟩
  · exact .inr (.inl ⟨ho, hk, by simp [fetch, h]⟩)
  · cases hv : inVectorRegion s.pc
    · cases hn : needsExtension w
      · exact .inr (.inr (.inr (.inr ⟨ho, w, 0#16, hl, rfl, fetch_instr h hv (by simp [fetchExtension, hn])⟩)))
      · rcases memReadWord_cases s s.postOpcode with ⟨h2, -⟩ | ⟨-, k, hk, -, h2⟩ | ⟨-, x, -, h2⟩
        · have h3 : isOdd s.postOpcode = false := isOdd_add_two ho
          rw [h3] at h2
          cases h2
        · exact .inr (.inr (.inr (.inl ⟨ho, w, hl, rfl, hn, k, hk, by simp [fetch, h, hv, fetchExtension, hn, h2]⟩)))
        · exact .inr (.inr (.inr (.inr ⟨ho, w, x, hl, rfl, fetch_instr h hv (by simp [fetchExtension, hn, h2])⟩)))
    · exact .inr (.inr (.inl ⟨ho, w, hl, rfl, fetch_vector h hv⟩))

/-! ### The mutators of a session, and the resolver with them -/

/-- What no reference mutator changes. -/
theorem refMut_frame {k : SingleOp} {n : Reg} {w lin : Word} {s t : State} (h : refMut k n w lin s = .ok t) :
    t.cfg = s.cfg ∧ t.pc = s.pc ∧ t.trace = s.trace := by
  by_cases hp : k = .push
  · subst hp
    obtain ⟨h1, h2, h3, -⟩ := pushOnStack_ok h
    exact ⟨h1, h2, h3⟩
  · by_cases hc : k = .call
    · subst hc
      obtain ⟨h1, h2, h3, -⟩ := callOnStack_ok h
      exact ⟨h1, h2, h3⟩
    · obtain ⟨r, f, h', -⟩ := refMut_register_only hp hc n w lin s
      rw [h'] at h
      cases h
      exact ⟨rfl, rfl, rfl⟩

/-- The two stops of a reference mutator, x[1] having moved. -/
theorem refMut_error {k : SingleOp} {n : Reg} {w lin : Word} {s : State} {e : Stop}
    (h : refMut k n w lin s = .error e) :
    e = endMisaligned (s.setReg 1 (stackSlot s)) ∨ e = endFatal .outOfRange (s.setReg 1 (stackSlot s)) := by
  by_cases hp : k = .push
  · subst hp
    exact pushOnStack_error h
  · by_cases hc : k = .call
    · subst hc
      exact callOnStack_error h
    · obtain ⟨r, f, h', -⟩ := refMut_register_only hp hc n w lin s
      rw [h'] at h
      cases h

/-- The two kinds of stop of any Mut of a session. -/
theorem mutOf_error {c : Config} {k : SingleOp} {n : Reg} {w lin : Word} {s : State} {e : Stop}
    (h : mutOf c k n w lin s = .error e) :
    (∃ t, e = endMisaligned t) ∨ (∃ kind t, kind ≠ .other ∧ e = endFatal kind t) := by
  cases hc : c.mutators with
  | reference =>
    rw [mutOf_reference hc] at h
    rcases refMut_error h with rfl | rfl
    · exact .inl ⟨_, rfl⟩
    · exact .inr ⟨.outOfRange, _, nofun, rfl⟩
  | other j =>
    rw [mutOf_other hc] at h
    rcases runPlan_error h with ⟨t, -, rfl | ⟨kind, hk, rfl⟩⟩
    · exact .inl ⟨t, rfl⟩
    · exact .inr ⟨kind, t, hk, rfl⟩

/-- What no Mut of a session changes. -/
theorem mutOf_ok {c : Config} {k : SingleOp} {n : Reg} {w lin : Word} {s t : State} (h : mutOf c k n w lin s = .ok t) :
    t.cfg = s.cfg ∧ t.pc = s.pc ∧ t.trace = s.trace := by
  cases hc : c.mutators with
  | reference =>
    rw [mutOf_reference hc] at h
    exact refMut_frame h
  | other j =>
    rw [mutOf_other hc] at h
    obtain ⟨h1, h2, h3, -⟩ := runPlan_ok h
    exact ⟨h1, h2, h3⟩

/-- The three kinds of outcome of a single-operand instruction, for every Mut of a session. -/
theorem resolve_cases (c : Config) (k : SingleOp) (bw : Bool) (o : Operand) (s : State) :
    (∃ t, resolve (mutOf c) k bw o s = .next t) ∨ (∃ t, resolve (mutOf c) k bw o s = .refused (.misaligned t)) ∨
    (∃ kind t, kind ≠ .other ∧ resolve (mutOf c) k bw o s = .fault (.fatal kind t)) := by
  rcases operandPhase_cases k s o with ⟨p, hp, -⟩ | hp | hp
  · cases hu : mutOf c k o.reg (singleWord k bw o) (linearSuccessor s o) p with
    | error e =>
      rw [resolve_of_mut_error hp hu]
      rcases mutOf_error hu with ⟨t, rfl⟩ | ⟨kind, t, hk, rfl⟩
      · exact .inr (.inl ⟨t, rfl⟩)
      · exact .inr (.inr ⟨kind, t, hk, rfl⟩)
    | ok u =>
      rw [resolve_of_ok hp hu]
      exact .inl ⟨_, rfl⟩
  · rw [resolve_of_operand_error hp]
    exact .inr (.inl ⟨_, rfl⟩)
  · rw [resolve_of_operand_error hp]
    exact .inr (.inr ⟨.outOfRange, _, nofun, rfl⟩)

/-- An operand phase that goes on: `operandPhase_cases` without its stops. -/
theorem operandPhase_ok {k : SingleOp} {s p : State} {o : Operand} (h : operandPhase k s o = .ok p) :
    p.cfg = s.cfg ∧ p.flags = s.flags ∧ p.pc = s.pc ∧ (∀ m, m ≠ o.reg → p.reg m = s.reg m) ∧
      ((repairSite s o = none ∧ p.mem = s.mem) ∨
        (∃ a, repairSite s o = some a ∧ inRangeWord s.cfg a = true ∧ p.mem = (s.setWord a sentinel).mem)) ∧
      (k ≠ .push → k ≠ .call → p.trace = s.trace) := by
  rcases operandPhase_cases k s o with ⟨t, ht, hh⟩ | h' | h'
  · rw [h] at ht
    cases ht
    exact hh
  · rw [h] at h'
    cases h'
  · rw [h] at h'
    cases h'

end Sys2Proof.Machine
end

