-- ==== Sys2Proof/Tests/Slice0.lean ====
section
/-! SUPPORT. Tests of the model on the spec's own vectors (95_test_vectors.md; each name ends in the vector's id), and
the witnesses that the hypotheses of the statements are met. Every expected value is the spec's. -/

namespace Sys2Proof.Tests

open Sys2Proof Sys2Proof.Machine Sys2Proof.Safety

/-! ### Small states -/

/-- The launch state with another window, pc, registers, flags and words of memory. -/
def start (c : Config) (pc : Word) (regs : List (Reg × Word)) (words : List (Word × Word)) : State :=
  let s := regs.foldl (fun s x => s.setReg x.1 x.2) { State.reset with cfg := c, pc := pc }
  words.foldl (fun s x => s.setWord x.1 x.2) s

/-- The window of 95_test_vectors.md's conventions: the whole address space. -/
def whole : Config := ⟨0#16, 0x10000, .reference⟩

/-- The window 0x0200 to 0xFFFF of vector V5. -/
def based : Config := ⟨0x0200#16, 0xFE00, .reference⟩

/-- The window 0x0200 to 0x0FFF of vectors V8 and W1. -/
def small : Config := ⟨0x0200#16, 0x0E00, .reference⟩

/-- The flags Z, C, N, V in this order. -/
def fl (z c n v : Bool) : Flags := ⟨z, c, n, v⟩

/-- The next state of an outcome, if there is one. -/
def nextOf : StepOutcome → Option State
  | .next s => some s
  | .fault _ => none
  | .refused _ => none

/-- An outcome that ends the step, without its state. -/
inductive Ended where
  | fetchUnreadable | doubleOperand | reti | fatal (k : FailKind) | misaligned | otherRefusal
  deriving DecidableEq, Repr

/-- How an outcome ended the step, if it did. -/
def endOf : StepOutcome → Option Ended
  | .next _ => none
  | .fault (.noResult .fetchUnreadable _) => some .fetchUnreadable
  | .fault (.noResult .doubleOperand _) => some .doubleOperand
  | .fault (.retiPlaceholder _) => some .reti
  | .fault (.fatal k _) => some (.fatal k)
  | .refused (.misaligned _) => some .misaligned
  | .refused _ => some .otherRefusal

/-- The word at an address, for a result. -/
def word (s : State) (a : Word) : Option Word := wordAt s a

/-! ### WellFormed: the one check, on a term that it refuses and at every end of R60's ranges -/

theorem test_wellFormed_refuses_nop_of_rrc : (Instr.nop 0x1005).wellFormed = false := by decide
theorem test_wellFormed_refuses_nop_at_range_ends :
    ([0x1000, 0x12FF, 0x1300, 0x2000, 0xFFFF] : List Word).all (fun w => !(Instr.nop w).wellFormed) = true := by decide
theorem test_wellFormed_takes_nop_at_range_ends :
    ([0x0000, 0x0FFF, 0x1301, 0x137F, 0x1380, 0x1FFF] : List Word).all (fun w => (Instr.nop w).wellFormed) = true := by
  decide

/-! ### Decoding: words written out from 30_encoding.md R51 to R53 and vectors E1 to E26, one for every constructor -/

theorem test_decode_rrc_E1_E2 :
    decodeWords 0x1005 0 = .rrc false (.register 5) ∧
    decodeWords 0x107F 0 = .rrc true (.autoincrement 15) := by
  decide

theorem test_decode_swpb_E3_E4 :
    decodeWords 0x1080 0 = .swpb false (.register 0) ∧
    decodeWords 0x10C5 0 = .swpb true (.register 5) := by
  decide

theorem test_decode_rra_E5 :
    decodeWords 0x1135 0 = .rra false (.autoincrement 5) := by
  decide

theorem test_decode_sxt_E6 :
    decodeWords 0x1196 0xFFFE = .sxt false (.indexed 6 0xFFFE) := by
  decide

theorem test_decode_push_E7 :
    decodeWords 0x1230 0 = .push false (.autoincrement 0) ∧
    decodeWords 0b0001001000100100 0 = .push false (.indirect 4) := by
  decide

theorem test_decode_call_E8_E9 :
    decodeWords 0x12B0 0 = .call false (.autoincrement 0) ∧
    decodeWords 0x12FF 0 = .call true (.autoincrement 15) := by
  decide

theorem test_decode_reti_E10 :
    decodeWords 0x1300 0 = .reti := by
  decide

theorem test_decode_nop_E11_to_E16 :
    decodeWords 0x1301 0 = .nop 0x1301 ∧
    decodeWords 0x137F 0 = .nop 0x137F ∧
    decodeWords 0x1380 0 = .nop 0x1380 ∧
    decodeWords 0x1FFF 0 = .nop 0x1FFF ∧
    decodeWords 0x0000 0 = .nop 0 ∧
    decodeWords 0x0FFF 0 = .nop 0x0FFF := by
  decide

theorem test_decode_jumps_low_E17_to_E19 :
    decodeWords 0x2000 0 = .jnz 0 ∧
    decodeWords 0x23FF 0 = .jnz 0x3FF ∧
    decodeWords 0x2400 0 = .jz 0 ∧
    decodeWords 0b0010100000000011 0 = .jnc 3 ∧
    decodeWords 0b0010110000000011 0 = .jc 3 := by
  decide

theorem test_decode_jumps_high_E20_to_E22 :
    decodeWords 0x3000 0 = .jn 0 ∧
    decodeWords 0x3400 0 = .jge 0 ∧
    decodeWords 0b0011100000000011 0 = .jl 3 ∧
    decodeWords 0x3FFF 0 = .jmp 0x3FF := by
  decide

theorem test_decode_double_4_to_9_E23_E24 :
    decodeWords 0x4000 0 = .mov 0 ∧
    decodeWords 0x4FFF 0 = .mov 0xFFF ∧
    decodeWords 0x5001 0 = .add 1 ∧
    decodeWords 0x6001 0 = .addc 1 ∧
    decodeWords 0x7001 0 = .subc 1 ∧
    decodeWords 0x8001 0 = .sub 1 ∧
    decodeWords 0x9001 0 = .cmp 1 := by
  decide

theorem test_decode_double_A_to_F_E25_E26 :
    decodeWords 0xABCD 0 = .dadd 0xBCD ∧
    decodeWords 0xB001 0 = .bit 1 ∧
    decodeWords 0xC001 0 = .bic 1 ∧
    decodeWords 0xD001 0 = .bis 1 ∧
    decodeWords 0xE001 0 = .xor 1 ∧
    decodeWords 0xFFFF 0 = .and 0xFFF := by
  decide

/-- The low byte of a word is first (20_memory.md R34), and the extension word follows (R50). -/
theorem test_decode_bytes : decode [0x96, 0x11, 0x02, 0x00, 0xEE] = .ok (.sxt false (.indexed 6 2), [0xEE]) := by decide

/-- A list too short for the instruction is rejected by name. -/
theorem test_decode_rejects_short :
    decode [0x05] = .error .noOpcodeWord ∧ decode [0x96, 0x11, 0x02] = .error .noExtensionWord := by decide

theorem test_decodeTableWord :
    decodeTableWord 16 0x1196 = some (.sxt false (.indexed 6 0)) ∧
    decodeTableWord 32 0x00021196 = some (.sxt false (.indexed 6 2)) ∧
    decodeTableWord 16 0x3C00 = some (.jmp 0) := by decide

theorem test_encode :
    encode (.sxt false (.indexed 6 2)) = [0x1196, 0x0002] ∧ encode (.rrc true (.autoincrement 15)) = [0x107F] ∧
    encode (.jge 0) = [0x3400] ∧ encode (.dadd 0xBCD) = [0xABCD] := by decide

/-- The host's word runs as the first instruction: here the extension word has no bits (log entry 25). -/
theorem test_withFetchWord_runs :
    (nextOf (step (State.reset.withFetchWord 16 0x1005))).map (fun t => t.pc) = some 0x1002 ∧
    (nextOf (step (State.reset.withFetchWord 16 0x1197))).map (fun t => t.pc) = some 0x1004 ∧
    endOf (step (State.reset.withFetchWord 16 0x1300)) = some .reti := by decide

/-! ### Jumps -/

/-- The offsets at the ends of both halves of the field: table 2.2, O1 to O8. -/
theorem test_jumpOffset_O1_to_O8 :
    ([0x000, 0x001, 0x002, 0x1FF, 0x200, 0x201, 0x202, 0x3FF] : List (BitVec 10)).map jumpOffset =
      [0xFFFF, 0x0000, 0x0001, 0x01FE, 0x01FF, 0xFE00, 0xFE01, 0xFFFE] := by decide

/-- The next pc of a step at `pc` on the word `w`, with the given flags. -/
def after (pc w : Word) (f : Flags) : Option Word :=
  (nextOf (step { start whole pc [] [(pc, w)] with flags := f })).map (fun t => t.pc)

/-- A row of table S9 of 95_test_vectors.md: the next pc for no flag, Z, C, N, V, and N with V. -/
def s9Row (w : Word) : List (Option Word) :=
  [after 0x1000 w (fl false false false false), after 0x1000 w (fl true false false false),
   after 0x1000 w (fl false true false false), after 0x1000 w (fl false false true false),
   after 0x1000 w (fl false false false true), after 0x1000 w (fl false false true true)]

theorem test_jnz_S9 : s9Row 0x2003 =
    [some 0x1006, some 0x1002, some 0x1006, some 0x1006, some 0x1006, some 0x1006] := by decide

theorem test_jz_S9 : s9Row 0x2403 =
    [some 0x1002, some 0x1006, some 0x1002, some 0x1002, some 0x1002, some 0x1002] := by decide

theorem test_jnc_S9 : s9Row 0x2803 =
    [some 0x1006, some 0x1006, some 0x1002, some 0x1006, some 0x1006, some 0x1006] := by decide

theorem test_jc_S9 : s9Row 0x2C03 =
    [some 0x1002, some 0x1002, some 0x1006, some 0x1002, some 0x1002, some 0x1002] := by decide

theorem test_jn_S9 : s9Row 0x3003 =
    [some 0x1002, some 0x1002, some 0x1002, some 0x1006, some 0x1002, some 0x1006] := by decide

theorem test_jge_S9 : s9Row 0x3403 =
    [some 0x1006, some 0x1006, some 0x1006, some 0x1002, some 0x1002, some 0x1006] := by decide

theorem test_jl_S9 : s9Row 0x3803 =
    [some 0x1002, some 0x1002, some 0x1002, some 0x1006, some 0x1006, some 0x1002] := by decide

theorem test_jmp_S9 : s9Row 0x3C03 =
    [some 0x1006, some 0x1006, some 0x1006, some 0x1006, some 0x1006, some 0x1006] := by decide

theorem test_jump_targets_J1_to_J6 :
    after 0x1000 0x3C00 (fl false false false false) = some 0x1000 ∧
    after 0x0FFE 0x3C00 (fl false false false false) = some 0x0FFE ∧
    after 0x0000 0x3E01 (fl false false false false) = some 0xFC02 ∧
    after 0xFFBE 0x3E00 (fl false false false false) = some 0x03BE ∧
    after 0xFFBE 0x3C01 (fl false false false false) = some 0xFFC0 ∧
    after 0x1000 0x3FFF (fl false false false false) = some 0x0FFE := by decide

/-! ### Fetch, vector shortcut, fallback, stubs: table 2.3 -/

theorem test_vector_V25_V37_V38 :
    nextOf (step (start whole 0xFFFE [] [(0xFFFE, 0xFD00)])) =
      some { start whole 0xFFFE [] [(0xFFFE, 0xFD00)] with pc := 0xFD00 } ∧
    after 0xFFC0 0x1105 (fl false false false false) = some 0x1105 ∧
    after 0xFFC2 0x0001 (fl false false false false) = some 0x0001 := by decide

theorem test_fetch_unreadable_V26_V39 :
    endOf (step (start whole 0xFFC0 [] [])) = some .fetchUnreadable ∧
    endOf (step (start small 0x0100 [] [])) = some .fetchUnreadable := by decide

theorem test_fetch_odd_V28 : endOf (step (start whole 0x1001 [] [(0x1000, 0x1105)])) = some .misaligned := by decide

theorem test_nop_V40_V41 :
    after 0x1000 0x0000 (fl false true false true) = some 0x1002 ∧
    after 0x1000 0x1301 (fl false true false true) = some 0x1002 := by decide

theorem test_reti_V42 : endOf (step (start whole 0x1000 [] [(0x1000, 0x1300)])) = some .reti := by decide

/-- One word of each of the twelve double-operand rows, V43 and V44 among them. -/
theorem test_double_operands_V43_V44 :
    ([0x4034, 0x5034, 0x6034, 0x7034, 0x8034, 0x9034, 0xABCD, 0xB034, 0xC034, 0xD034, 0xE034, 0xF034] : List Word).all
      (fun w => endOf (step (start whole 0x1000 [] [(0x1000, w)])) == some .doubleOperand) = true := by decide

/-! ### Single-operand instructions: tables 2.4 to 2.7 -/

theorem test_rrc_V1 :
    (nextOf (step (start whole 0x1000 [(5, 0x0003)] [(0x1000, 0x1005)]))).map
      (fun t => (t.pc, t.reg 5, t.flags)) =
      some (0x1002, 0x0001, fl false true false false) := by decide

theorem test_swpb_indexed_V5 :
    (nextOf (step (start based 0x1000 [(4, 0x0500)] [(0x1000, 0x1094), (0x1002, 0x0010), (0x0710, 0x1234)]))).map
      (fun t => (t.pc, t.reg 4, word t 0x0710)) =
      some (0x1004, 0x3412, some 0x1234) := by decide

theorem test_swpb_autoincrement_V13 :
    (nextOf (step (start whole 0x1000 [(5, 0x3000)] [(0x1000, 0x10F5), (0x3000, 0x1234)]))).map
      (fun t => (t.pc, t.reg 5)) =
      some (0x1002, 0x3413) := by decide

theorem test_rra_autoincrement_repaired_V14 :
    (nextOf (step (start whole 0x1000 [(5, 0x3000)] [(0x1000, 0x1135)]))).map
      (fun t => (t.pc, t.reg 5, t.flags, word t 0x3000)) =
      some (0x1002, 0xD5E8, fl false true true false, some 0xABCD) := by decide

theorem test_sxt_indexed_repaired_V3 :
    (nextOf (step (start whole 0x1000 [(7, 0x0300)] [(0x1000, 0x1197), (0x1002, 0x0002)]))).map
      (fun t => (t.pc, t.reg 7, t.flags, word t 0x0302)) =
      some (0x1004, 0xFFCD, fl false true true false, some 0xABCD) := by decide

theorem test_push_indirect_V10 :
    (nextOf (step (start whole 0x1000 [(4, 0x3000), (1, 0x4000)] [(0x1000, 0x1224), (0x3000, 0x1111)]))).map
      (fun t => (t.pc, t.reg 4, t.reg 1, word t 0x3FFE, t.trace)) =
      some (0x1002, 0x1111, 0x3FFE, some 0x1111, [TraceEvent.dump 0x3000 32]) := by decide

theorem test_push_byte_V21 :
    (nextOf (step (start whole 0x1000 [(5, 0x1234), (1, 0x4000)] [(0x1000, 0x1245)]))).map
      (fun t => (t.pc, t.reg 1, t.byte 0x3FFE, t.byte 0x3FFF)) =
      some (0x1002, 0x3FFE, some 0x34, none) := by decide

theorem test_call_indexed_V24 :
    (nextOf (step (start whole 0x1000 [(6, 0x0500), (1, 0x4000)] [(0x1000, 0x1296), (0x1002, 0x0004), (0x0504, 0x2000)]))).map
      (fun t => (t.pc, t.reg 0, t.reg 1, t.reg 6, word t 0x3FFE)) =
      some (0x2000, 0x2000, 0x3FFE, 0x2000, some 0x1004) := by decide

theorem test_call_autoincrement_r0_V15 :
    (nextOf (step (start whole 0x1000 [(0, 0x0500), (1, 0x4000)] [(0x1000, 0x12B0), (0x0500, 0x2000)]))).map
      (fun t => (t.pc, t.reg 0, t.reg 1, word t 0x3FFE, t.trace)) =
      some (0x2002, 0x2002, 0x3FFE, some 0x1002, []) := by decide

/-! ### The corners of the operand load -/

/-- The state in which the mutator is invoked, if the operand phase goes on. -/
def phased (k : SingleOp) (s : State) (o : Operand) : Option State := (operandPhase k s o).toOption

/-- How an operand phase stops, if it does. -/
def phaseEnd (k : SingleOp) (s : State) (o : Operand) : Option Ended :=
  match operandPhase k s o with
  | .ok _ => none
  | .error e => endOf e.outcome

/-- A negative index, the base dropped from a sum at or above 0xFFC0, and a sum that wraps. -/
theorem test_index_sum_V4_V6_V7 :
    (phased .rra (start whole 0 [(6, 0x0500)] [(0x04FE, 0x8001)]) (.indexed 6 0xFFFE)).map (fun t => t.reg 6) = some 0x8001 ∧
    (phased .rrc (start based 0 [(4, 0xFDE0)] [(0xFDE0, 0x0004)]) (.indexed 4 0)).map (fun t => t.reg 4) = some 0x0004 ∧
    (phased .rrc (start based 0 [(4, 0x0300)] [(0x0400, 0x0006)]) (.indexed 4 0xFF00)).map (fun t => t.reg 4) =
      some 0x0006 := by decide

/-- The repair out of range destroys 0x1234, and the repair of a half-written word destroys its byte. -/
theorem test_repairs_V18_V46 :
    (phased .rra (start based 0 [(5, 0x0100)] [(0x0300, 0x1234)]) (.indirect 5)).map
      (fun t => (t.reg 5, word t 0x0300, t.trace)) = some (0xABCD, some 0xABCD, []) ∧
    (phased .rra ((start whole 0 [(5, 0x3000)] []).setByte 0x3000 0x11) (.indirect 5)).map
      (fun t => (t.reg 5, word t 0x3000)) = some (0xABCD, some 0xABCD) := by decide

/-- PUSH @SP loads through x[1] and replaces it before the stack pointer moves. -/
theorem test_stack_pointer_operand_V16 :
    (phased .push (start whole 0 [(1, 0x4000)] [(0x4000, 0x3000)]) (.indirect 1)).map
      (fun t => (t.reg 1, stackSlot t, t.trace)) = some (0x3000, 0x2FFE, [TraceEvent.dump 0x4000 32]) := by decide

theorem test_second_failure_V8_V19_V20 :
    phaseEnd .rrc (start small 0x0400 [(4, 0x2000)] []) (.indexed 4 0) = some (.fatal .outOfRange) ∧
    phaseEnd .rra (start small 0x0400 [(5, 0xF000)] []) (.indirect 5) = some (.fatal .outOfRange) ∧
    phaseEnd .rra (start ⟨0, 0x8000, .reference⟩ 0x0400 [(5, 0x9000)] []) (.indirect 5) = some (.fatal .outOfRange) := by decide

theorem test_operand_odd_V17 :
    phaseEnd .rra (start whole 0x1000 [(5, 0x3001)] []) (.indirect 5) = some .misaligned := by decide

theorem test_extension_unwritten_V9 :
    fetch (start whole 0x1000 [(4, 0x2000)] [(0x1000, 0x1014)]) =
      .error (endFatal .uninitialized (start whole 0x1000 [(4, 0x2000)] [(0x1000, 0x1014)])) := by decide

/-- The failing store leaves x[1] moved and stores nothing. -/
theorem test_push_store_fails_V45 :
    mutPush 5 0x1205 0x1002 (start based 0x1000 [(5, 0x1234), (1, 0x0200)] []) =
      .error (endFatal .outOfRange (start based 0x1000 [(5, 0x1234), (1, 0x01FE)] [])) := by decide

/-! ### The reference mutators: table 2.8 -/

/-- x[5] and the flags after a register-form step on `w`, with x[5] = `v` and the carry `c` before. -/
def mutated (w v : Word) (c : Bool) : Option (Word × Flags) :=
  (nextOf (step { start whole 0x1000 [(5, v)] [(0x1000, w)] with flags := fl false c false false })).map
    (fun t => (t.reg 5, t.flags))

theorem test_rrc_M1_to_M5 :
    mutated 0x1005 0xABCD false = some (0x55E6, fl false true false false) ∧
    mutated 0x1005 0xABCD true = some (0xD5E6, fl false true true false) ∧
    mutated 0x1005 0x0000 true = some (0x8000, fl false false true false) ∧
    mutated 0x1005 0x0001 false = some (0x0000, fl true true false false) ∧
    mutated 0x1045 0xAB81 true = some (0x00C0, fl false true true false) := by decide

theorem test_rra_M6_to_M10 :
    mutated 0x1105 0xABCD false = some (0xD5E6, fl false true true false) ∧
    mutated 0x1105 0x8000 true = some (0xC000, fl false false true false) ∧
    mutated 0x1105 0x0001 false = some (0x0000, fl true true false false) ∧
    mutated 0x1105 0xFFFF false = some (0xFFFF, fl false true true false) ∧
    mutated 0x1145 0x1280 true = some (0x00C0, fl false false true false) := by decide

theorem test_swpb_M11 : mutated 0x1085 0xABCD true = some (0xCDAB, fl false true false false) := by decide

theorem test_sxt_M12_to_M15 :
    mutated 0x1185 0xABCD false = some (0xFFCD, fl false true true false) ∧
    mutated 0x1185 0x1280 false = some (0xFF80, fl false true true false) ∧
    mutated 0x1185 0x1200 true = some (0x0000, fl true false false false) ∧
    mutated 0x1185 0x127F false = some (0x007F, fl false true false false) := by decide

/-! ### The Memory Store: table 2.9 -/

theorem test_memory_W1_W2_W5_W6 :
    loadWord (start small 0 [] []) 0x01FE = .error .outOfRange ∧
    loadWord (start small 0 [] []) 0x0200 = .error .uninitialized ∧
    storeWord (start small 0 [] []) 0x1000 0 = .error .outOfRange ∧
    loadWord (start small 0 [] []) 0xF000 = .error .outOfRange := by decide

theorem test_memory_W3_W4_W7 :
    loadWord (start small 0 [] [(0x0200, 0x1234)]) 0x0200 = .ok 0x1234 ∧
    (start small 0 [] [(0x0200, 0x1234)]).byte 0x0200 = some 0x34 ∧
    (start small 0 [] [(0x0200, 0x1234)]).byte 0x0201 = some 0x12 ∧
    loadWord (start small 0 [] [(0x0FFE, 0xBEEF)]) 0x0FFE = .ok 0xBEEF ∧
    loadWord (start whole 0 [] [(0xFFFE, 0x5A5A)]) 0xFFFE = .ok 0x5A5A := by decide

/-- Two orders of the same writes give the same memory: the canonical form (log entry 7). -/
theorem test_memory_canonical :
    (start whole 0 [] [(0x0200, 0x1234), (0x0100, 0x5678)]).mem = (start whole 0 [] [(0x0100, 0x5678), (0x0200, 0x1234)]).mem := by
  decide

/-! ### Witnesses: the hypotheses of each statement are met, clause by clause, at the ends of their ranges -/

/-- A state with the word `w` at the pc. -/
def at1 (pc w : Word) : State := start whole pc [] [(pc, w)]

theorem witness_DecodeOfEncode : (Instr.nop 0x1FFF).wellFormed = true ∧ (Instr.sxt false (.indexed 6 2)).wellFormed = true := by
  decide

theorem witness_RowsAreDisjoint :
    let r : DispatchRule := ⟨0xFFFF#16, 0x1300#16, .reti⟩
    r ∈ singleOperandRules ++ (jumpRules ++ doubleOperandRules) ∧ r.matches 0x1300 = true := by decide

theorem witness_RetiMatchesTheWholeWord : classify 0x1300 = .reti ∧ classify 0x1301 = .nop ∧ classify 0x137F = .nop := by decide

theorem witness_StepRunsDecodedInstruction_one_word :
    isOdd (at1 0xFFBE 0x3E00).pc = false ∧ (at1 0xFFBE 0x3E00).pc.toNat < 0xFFC0 ∧
    loadWord (at1 0xFFBE 0x3E00) (at1 0xFFBE 0x3E00).pc = .ok 0x3E00 ∧ needsExtension 0x3E00 = false ∧
    decode (wordBytes 0x3E00 ++ []) = .ok (.jmp 0x200, []) := by decide

/-- An indexed word at 0xFFBE has its extension word in the vector region. -/
theorem witness_StepRunsDecodedInstruction_two_words :
    let s := start whole 0xFFBE [] [(0xFFBE, 0x1196), (0xFFC0, 0x0002)]
    isOdd s.pc = false ∧ s.pc.toNat < 0xFFC0 ∧ loadWord s s.pc = .ok 0x1196 ∧ needsExtension 0x1196 = true ∧
    loadWord s (s.pc + 2) = .ok 0x0002 ∧
    decode (wordBytes 0x1196 ++ wordBytes 0x0002) = .ok (.sxt false (.indexed 6 2), []) := by decide

theorem witness_OneStepInOrder_odd : isOdd (start whole 0x1001 [] []).pc = true := by decide

theorem witness_OneStepInOrder_unreadable :
    isOdd (start small 0x0FFE [] []).pc = false ∧ loadWord (start small 0x0FFE [] []) 0x0FFE = .error .uninitialized ∧
    isOdd (start small 0x1000 [] []).pc = false ∧ loadWord (start small 0x1000 [] []) 0x1000 = .error .outOfRange := by decide

theorem witness_OneStepInOrder_vector :
    isOdd (at1 0xFFC0 0x1105).pc = false ∧ loadWord (at1 0xFFC0 0x1105) (at1 0xFFC0 0x1105).pc = .ok 0x1105 ∧
    0xFFC0 ≤ (at1 0xFFC0 0x1105).pc.toNat := by decide

theorem witness_ExtensionFailureIsFatal :
    let s := start whole 0x1000 [(4, 0x2000)] [(0x1000, 0x1014)]
    isOdd s.pc = false ∧ s.pc.toNat < 0xFFC0 ∧ loadWord s s.pc = .ok 0x1014 ∧ needsExtension 0x1014 = true ∧
    loadWord s (s.pc + 2) = .error .uninitialized := by decide

theorem witness_FetchedSentinelEndsTheRun :
    isOdd (at1 0x1000 0xABCD).pc = false ∧ (at1 0x1000 0xABCD).pc.toNat < 0xFFC0 ∧
    loadWord (at1 0x1000 0xABCD) (at1 0x1000 0xABCD).pc = .ok 0xABCD := by decide

theorem witness_JumpsFollowTheTable :
    let f : BitVec 10 := 0x3FF
    let masked := fun w v : Word => w.extractLsb' 0 10 = f ∧ w &&& 0xFC00 = v
    masked 0x23FF 0x2000 ∧ masked 0x27FF 0x2400 ∧ masked 0x2BFF 0x2800 ∧ masked 0x2FFF 0x2C00 ∧
    masked 0x33FF 0x3000 ∧ masked 0x37FF 0x3400 ∧ masked 0x3BFF 0x3800 ∧ masked 0x3FFF 0x3C00 := by decide

theorem witness_DoubleOperandsEndTheRun :
    let masked := fun w v : Word => w &&& 0xF000 = v
    masked 0x4FFF 0x4000 ∧ masked 0x5FFF 0x5000 ∧ masked 0x6FFF 0x6000 ∧ masked 0x7FFF 0x7000 ∧ masked 0x8FFF 0x8000 ∧
    masked 0x9FFF 0x9000 ∧ masked 0xAFFF 0xA000 ∧ masked 0xBFFF 0xB000 ∧ masked 0xCFFF 0xC000 ∧ masked 0xDFFF 0xD000 ∧
    masked 0xEFFF 0xE000 ∧ masked 0xFFFF 0xF000 := by decide

theorem witness_NopOnlyAdvances :
    ([0x0000, 0x0FFF, 0x1301, 0x137F, 0x1380, 0x1FFF] : List Word).all isFallbackWord = true := by decide

theorem witness_NoResultLeavesTheState_unreadable :
    step (start whole 0xFFC0 [] []) = .fault (.noResult .fetchUnreadable (start whole 0xFFC0 [] [])) := rfl

theorem witness_NoResultLeavesTheState_double :
    step (at1 0x1000 0x4034) = .fault (.noResult .doubleOperand (at1 0x1000 0x4034)) := rfl

/-- The last byte of the window makes a word out of range; the word before it is in range, unwritten or written. -/
theorem witness_LoadWordTestsInOrder :
    let inRange := fun (s : State) (a : Word) =>
      s.cfg.memBase.toNat ≤ a.toNat ∧ a.toNat + 1 < s.cfg.memBase.toNat + s.cfg.memSize
    let s := (start small 0 [] [(0x0FFE, 0xBEEF)]).setByte 0x0FFD 0x11
    ¬ inRange s 0x0FFF ∧ ¬ inRange s 0x01FF ∧
    (inRange s 0x0FFC ∧ s.byte 0x0FFC = none) ∧
    (inRange s 0x0FFE ∧ s.byte 0x0FFE = some 0xEF ∧ s.byte 0x0FFF = some 0xBE) := by decide

theorem witness_StoreThenLoad :
    inRangeWord (start small 0 [] []).cfg 0x0FFF = false ∧ inRangeWord (start small 0 [] []).cfg 0x0FFE = true ∧
    inRangeWord (start whole 0 [] []).cfg 0xFFFF = false ∧ ¬ InWord 0x1000 (0x0FFE : Word) := by decide

theorem witness_OperandLoadRepairsOnce_plain :
    isOdd 0x3001 = true ∧ isOdd 0x3000 = false ∧ loadWord (at1 0x3000 0x1111) 0x3000 = .ok 0x1111 ∧
    loadWord (start whole 0 [] []) 0x3000 = .error .uninitialized := by decide

/-- Out of range, with MEM_BASE added: out of range, in range, and, in a window whose base is odd, at an odd address. -/
theorem witness_OperandLoadRepairsOnce_moved :
    isOdd 0xF000 = false ∧ loadWord (start small 0 [] []) 0xF000 = .error .outOfRange ∧
    isOdd (0xF000 + small.memBase) = false ∧ inRangeWord small (0xF000 + small.memBase) = false ∧
    loadWord (start based 0 [] []) 0x01FE = .error .outOfRange ∧ isOdd (0x01FE + based.memBase) = false ∧
    inRangeWord based (0x01FE + based.memBase) = true ∧
    loadWord (start ⟨0x0201, 0x0100, .reference⟩ 0 [] []) 0x0100 = .error .outOfRange ∧ isOdd ((0x0100 : Word) + 0x0201) = true := by decide

theorem witness_SecondReadIsPlain :
    let s := start based 0 [] []
    operandLoad s 0x01FE true = .ok ⟨0xABCD, 0x03FE, s.setWord 0x03FE 0xABCD⟩ := by decide

/-- For ReadyOperandIsLoaded: an operand of each mode can be loaded: a register; an indexed word in range; a repaired
pointer; a pointer whose repair adds MEM_BASE. -/
theorem witness_OperandReady :
    OperandReady (start whole 0 [] []) (.register 5) ∧
    OperandReady (start based 0 [(4, 0xFDE0)] []) (.indexed 4 0) ∧
    OperandReady (start whole 0 [(5, 0x3000)] []) (.indirect 5) ∧
    OperandReady (start based 0 [(5, 0x01FE)] []) (.autoincrement 5) := by
  refine ⟨trivial, ?_, ?_, ?_⟩
  · show LoadReady (start based 0 [(4, 0xFDE0)] []) 0xFDE0 true
    decide
  · show LoadReady (start whole 0 [(5, 0x3000)] []) 0x3000 true
    decide
  · show LoadReady (start based 0 [(5, 0x01FE)] []) 0x01FE true
    decide

theorem witness_UnreadyOperandStops :
    let s := start small 0x0400 [(5, 0xF000), (6, 0x3001)] []
    s.cfg.wf ∧ effectiveAddress s (.indirect 6) = some (0x3001, true) ∧ isOdd 0x3001 = true ∧
    effectiveAddress s (.indirect 5) = some (0xF000, true) ∧ isOdd 0xF000 = false ∧ ¬ LoadReady s 0xF000 true := by decide

/-- A mutator that changes nothing, and one that stops. -/
def idleMut : Mut := fun k n _ _ s => .ok (if k = .call then s.setReg 0 (s.reg n) else s)
def failingMut : Mut := fun _ _ _ _ s => .error (.fault (.fatal .other s))

theorem witness_RegisterMode :
    idleMut .rrc 5 (singleWord .rrc false (.register 5)) (State.reset.pc + 2) State.reset = .ok State.reset ∧
    failingMut .rrc 5 (singleWord .rrc false (.register 5)) (State.reset.pc + 2) State.reset =
      .error (.fault (.fatal .other State.reset)) := by decide

/-- MEM_BASE kept at a sum of 0xFFBE, and dropped at a sum of 0xFFC0, with a mutator that goes on and one that stops. -/
theorem witness_IndexedMode :
    let s := start based 0x1000 [(4, 0xFDBE), (5, 0xFDC0)] [(0xFFBE, 0x1111), (0xFDC0, 0x2222)]
    (s.cfg.memBase + s.reg 4 + 0 = 0xFFBE ∧ operandLoad s 0xFFBE false = .ok ⟨0x1111, 0xFFBE, s⟩) ∧
    (s.cfg.memBase + s.reg 5 + 0 = 0xFFC0 ∧ operandLoad s 0xFDC0 true = .ok ⟨0x2222, 0xFDC0, s⟩) ∧
    idleMut .sxt 4 0x1194 0x1004 (s.setReg 4 0x1111) = .ok (s.setReg 4 0x1111) ∧
    failingMut .sxt 4 0x1194 0x1004 (s.setReg 4 0x1111) = .error (.fault (.fatal .other (s.setReg 4 0x1111))) := by decide

theorem witness_IndirectMode_AutoincrementMode :
    let s := start whole 0x1000 [(4, 0x3000)] [(0x3000, 0x1111)]
    operandLoad s (s.reg 4) true = .ok ⟨0x1111, 0x3000, s⟩ ∧
    idleMut .push 4 0x1224 0x1002 (s.setReg 4 0x1111) = .ok (s.setReg 4 0x1111) ∧
    failingMut .push 4 0x1224 0x1002 (s.setReg 4 0x1111) = .error (.fault (.fatal .other (s.setReg 4 0x1111))) := by decide

/-- The operand load of each memory mode stops at an odd address. -/
theorem witness_modes_load_stops :
    operandLoad (start whole 0x1000 [(4, 0x3001)] []) 0x3001 false = .error (endMisaligned (start whole 0x1000 [(4, 0x3001)] [])) ∧
    operandLoad (start whole 0x1000 [(4, 0x3001)] []) 0x3001 true = .error (endMisaligned (start whole 0x1000 [(4, 0x3001)] [])) := by
  decide

theorem witness_CallReturnsRegisterZero :
    (∃ t, resolve refMut .call false (.register 1) (start whole 0x1000 [(1, 0x4000)] []) = .next t) ∧
    (∃ t, resolve refMut .push false (.register 1) (start whole 0x1000 [(1, 0x4000)] []) = .next t) :=
  ⟨⟨_, rfl⟩, ⟨_, rfl⟩⟩

/-- The mutator's stop after a repaired load: the sentinel and the register stay. -/
theorem witness_MutatorStopIsNotRolledBack :
    let s := start whole 0x1000 [(5, 0x3000)] []
    OperandReady s (.autoincrement 5) ∧
    failingMut .rrc 5 (singleWord .rrc false (.autoincrement 5)) (nextAddress s (.autoincrement 5))
      (operandState s (.autoincrement 5)) =
        .error (.fault (.fatal .other ((s.setWord 0x3000 0xABCD).setReg 5 0xABCD))) := by
  refine ⟨?_, by decide⟩
  show LoadReady (start whole 0x1000 [(5, 0x3000)] []) 0x3000 true
  decide

/-- For the results of RRC, SWPB, RRA and SXT: a reference session with an operand that can be loaded. -/
theorem witness_RrcResult_SwpbResult_RraResult_SxtResult :
    let s := start based 0 [(5, 0x01FE)] []
    s.cfg.mutators = .reference ∧ OperandReady s (.autoincrement 5) ∧ OperandReady s (.register 15) := by
  refine ⟨rfl, ?_, trivial⟩
  show LoadReady (start based 0 [(5, 0x01FE)] []) 0x01FE true
  decide

/-- An operand that can be loaded, with a mutator that goes on and with one that stops. -/
theorem witness_SingleOperandsRunUnderEveryMut :
    let s := start whole 0x1000 [(1, 0x4000)] []
    let r := start whole 0x1000 [(1, 0x4001)] []
    (OperandReady s (.register 1) ∧ ∃ u, mutOf s.cfg .push 1 (singleWord .push false (.register 1)) 0x1002 s = .ok u) ∧
    (OperandReady r (.register 1) ∧
      ∃ e, mutOf r.cfg .push 1 (singleWord .push false (.register 1)) 0x1002 r = .error e) :=
  ⟨⟨trivial, _, rfl⟩, trivial, _, rfl⟩

/-- PUSH and CALL that go on, with x[1] itself as the operand's register. -/
theorem witness_PushUnderEveryMut_CallUnderEveryMut :
    let s := start whole 0x1000 [(1, 0x4000)] []
    OperandReady s (.autoincrement 1) ∧ (∃ t, exec (.push true (.autoincrement 1)) s = .next t) ∧
    OperandReady s (.register 1) ∧ (∃ t, exec (.call false (.register 1)) s = .next t) := by
  refine ⟨?_, ⟨_, rfl⟩, trivial, ⟨_, rfl⟩⟩
  show LoadReady (start whole 0x1000 [(1, 0x4000)] []) 0x4000 true
  decide

/-- PUSH and CALL under a Mut that moves x[1] by 4, stores bytes and has its own return address, and one that moves it by
the most; an odd slot of CALL is refused with x[1] moved. -/
theorem test_stack_effects :
    let s := start whole 0x1000 [(1, 0x4000), (5, 0x1234)] []
    let p : MutPlan := { actions := [.setReg 5 0, .setReg 1 0], amountLessOne := 3, byteStore := true, returnAddress := 0x5678 }
    let q : MutPlan := { p with amountLessOne := 0xFFFE }
    runPlan p .push 5 s = .ok (((s.setReg 5 0).setReg 1 0x3FFC).setByte 0x3FFC 0x34) ∧
    runPlan p .call 5 s = .ok ((((s.setReg 5 0).setReg 1 0x3FFC).setWord 0x3FFC 0x5678).setReg 0 0x1234) ∧
    runPlan p .rrc 5 s = .ok ((s.setReg 5 0).setReg 1 0) ∧
    runPlan q .call 5 s = .error (endMisaligned ((s.setReg 5 0).setReg 1 0x4001)) := by decide

/-- A session that names an unknown Mut runs it, in the step as in the instruction. -/
theorem test_unknown_mut_is_run :
    let s : State := { at1 0x1000 0x1005 with cfg := { whole with mutators := .other 3 } }
    exec (.rrc false (.register 5)) s = resolve (openMut 3) .rrc false (.register 5) s ∧
    step s = resolve (openMut 3) .rrc false (.register 5) s := ⟨rfl, rfl⟩

/-- The port operations of an unknown mutator: the earlier ones stay, the first failing one ends the step. -/
theorem test_port_operations :
    let s := start small 0x0400 [] []
    runActions s [.setReg 5 7, .storeWord 0x0200 0x1234, .loadWord 0x0200] =
      .ok ((s.setReg 5 7).setWord 0x0200 0x1234) ∧
    runActions s [.setReg 5 7, .loadByte 0x0200, .setReg 5 8] = .error (endFatal .uninitialized (s.setReg 5 7)) ∧
    runActions s [.setReg 5 7, .storeWord 0x1000 0] = .error (endFatal .outOfRange (s.setReg 5 7)) ∧
    runActions s [.storeWord 0x0201 0] = .error (endMisaligned s) := by decide

/-- The last word and the last byte of the address space as stack slots. -/
theorem witness_PushResult_CallResult :
    let s := start whole 0x1000 [(1, 0x0000), (5, 0x1234)] []
    let b := start whole 0x1000 [(1, 0x0001), (5, 0x1234)] []
    (s.cfg.mutators = .reference ∧ OperandReady s (.register 5) ∧
      isOdd (s.reg 1 - 2) = false ∧ inRangeWord s.cfg (s.reg 1 - 2) = true) ∧
    (b.cfg.mutators = .reference ∧ OperandReady b (.register 5) ∧
      inRangeByte b.cfg (b.reg 1 - 2).toNat = true ∧ isOdd (b.reg 1 - 2) = true) :=
  ⟨⟨rfl, trivial, by decide⟩, rfl, trivial, by decide⟩

theorem witness_StackSlotStops :
    let s := start based 0x1000 [(1, 0x0200)] []
    let b := start based 0x1000 [(1, 0x0301)] []
    (s.cfg.mutators = .reference ∧ OperandReady s (.register 5) ∧ isOdd (s.reg 1 - 2) = false ∧
      inRangeWord s.cfg (s.reg 1 - 2) = false ∧ inRangeByte s.cfg (s.reg 1 - 2).toNat = false) ∧
    (b.cfg.mutators = .reference ∧ OperandReady b (.register 5) ∧ isOdd (b.reg 1 - 2) = true) :=
  ⟨⟨rfl, trivial, by decide⟩, rfl, trivial, by decide⟩

/-- Each of the four instructions, with a load that succeeds at once and with a repair. -/
theorem witness_RotateFrame :
    let s := start whole 0x1000 [(5, 0x3000)] [(0x3000, 0x1234)]
    let r := start whole 0x1000 [(5, 0x3000)] []
    s.cfg.mutators = .reference ∧ r.cfg.mutators = .reference ∧
    repairSite s (.indirect 5) = none ∧ repairSite r (.indirect 5) = some 0x3000 ∧
    ∀ i ∈ [Instr.rrc false (.indirect 5), .swpb false (.indirect 5), .rra false (.indirect 5), .sxt false (.indirect 5)],
      (nextOf (exec i s)).isSome = true ∧ (nextOf (exec i r)).isSome = true := by decide

theorem witness_PushFrame_CallFrame :
    let s := start whole 0x1000 [(1, 0x4000), (5, 0x3000)] []
    s.cfg.mutators = .reference ∧ repairSite s (.indirect 5) = some 0x3000 ∧ ¬ InWord 0x5000 (0x3000 : Word) ∧
    (∃ p, operandPhase .push s (.indirect 5) = .ok p ∧ stackSlot p = 0x3FFE) ∧
    (∃ p, operandPhase .call s (.indirect 5) = .ok p ∧ stackSlot p = 0x3FFE) ∧
    (∃ t, exec (.push false (.indirect 5)) s = .next t) ∧ (∃ t, exec (.push true (.indirect 5)) s = .next t) ∧
    (∃ t, exec (.call false (.indirect 5)) s = .next t) :=
  ⟨rfl, by decide, by decide, ⟨_, rfl, by decide⟩, ⟨_, rfl, by decide⟩, ⟨_, rfl⟩, ⟨_, rfl⟩, ⟨_, rfl⟩⟩

theorem witness_OthersChangeOnlyThePc :
    (∃ t, step (at1 0x1000 0x1301) = .next t) ∧ ∀ bw o k, ¬ Fetches (at1 0x1000 0x1301) (.ofSingle bw o k) := by
  refine ⟨⟨_, rfl⟩, fun bw o k h => ?_⟩
  have hf : fetch (at1 0x1000 0x1301) = .ok (.instr (.nop 0x1301)) := by decide
  unfold Fetches at h
  rw [hf] at h
  cases k <;> cases h

/-- A step that goes on, and one that stops after a partial effect, from states that meet the invariant (also for
StopsLeaveInvariant and StepKeepsParameters). -/
theorem witness_StepKeepsInvariant :
    Inv (at1 0x1000 0x3C00) ∧ (∃ t, step (at1 0x1000 0x3C00) = .next t) ∧
    Inv (start based 0x1000 [(1, 0x0200)] [(0x1000, 0x1205)]) ∧
    (∃ t, leftState (step (start based 0x1000 [(1, 0x0200)] [(0x1000, 0x1205)])) = some t) :=
  ⟨by decide, ⟨_, rfl⟩, by decide, ⟨_, rfl⟩⟩

/-- A mutator that meets the contract: PUSH and CALL go through their operations on the stack, the others do nothing. -/
def stackMut : Mut := fun k n _ lin s =>
  stackEffect { actions := [], amountLessOne := 3, byteStore := true, returnAddress := lin } (s.reg n) (s.reg 1) s k

theorem witness_ResolverKeepsInvariantForEveryMut :
    MutContract stackMut ∧ Inv State.reset ∧
    (∃ t, leftState (resolve stackMut .call false (.register 5) State.reset) = some t) := by
  refine ⟨fun k n w lin s => ?_, by decide, ⟨_, rfl⟩⟩
  cases h : stackMut k n w lin s with
  | ok t =>
    obtain ⟨h1, h2, h3, h4, h5, h6⟩ := stackEffect_ok h
    exact ⟨h1, h2, h3, h4, fun hk => ⟨⟨_, MutPlan.amount_ne_zero _, (h5 hk).1⟩, (h5 hk).2⟩,
      fun hk => ⟨⟨_, MutPlan.amount_ne_zero _, (h6 hk).1⟩, ⟨_, (h6 hk).2.1⟩, (h6 hk).2.2⟩⟩
  | error e =>
    rcases stackEffect_error h with rfl | rfl
    · exact .inr ⟨_, rfl, id⟩
    · exact .inl ⟨_, _, rfl, id⟩

theorem witness_FlagWriters :
    (start whole 0x1000 [(5, 0x0003)] [(0x1000, 0x1005)]).cfg.mutators = .reference ∧
    ∃ t, step (start whole 0x1000 [(5, 0x0003)] [(0x1000, 0x1005)]) = .next t ∧
      t.flags ≠ (start whole 0x1000 [(5, 0x0003)] [(0x1000, 0x1005)]).flags := ⟨rfl, _, rfl, by decide⟩

theorem witness_RegisterZeroWriters_MemoryWriters :
    (start whole 0x1000 [(1, 0x4000)] [(0x1000, 0x1281)]).cfg.mutators = .reference ∧
    ∃ t, step (start whole 0x1000 [(1, 0x4000)] [(0x1000, 0x1281)]) = .next t ∧
      t.reg 0 ≠ (start whole 0x1000 [(1, 0x4000)] [(0x1000, 0x1281)]).reg 0 ∧
      t.mem ≠ (start whole 0x1000 [(1, 0x4000)] [(0x1000, 0x1281)]).mem := ⟨rfl, _, rfl, by decide, by decide⟩

theorem witness_TraceWriters :
    ∃ t, step (start whole 0x1000 [(1, 0x4000), (4, 0x3000)] [(0x1000, 0x1224)]) = .next t ∧
      t.trace ≠ (start whole 0x1000 [(1, 0x4000), (4, 0x3000)] [(0x1000, 0x1224)]).trace := ⟨_, rfl, by decide⟩

/-- A jump at the last decoded address. -/
theorem witness_PcStaysEven :
    (∃ t, step (at1 0xFFBE 0x3E00) = .next t) ∧ (at1 0xFFBE 0x3E00).pc.toNat < 0xFFC0 ∧
    ∀ bw o, ¬ Fetches (at1 0xFFBE 0x3E00) (.call bw o) := by
  refine ⟨⟨_, rfl⟩, by decide, fun bw o h => ?_⟩
  have hf : fetch (at1 0xFFBE 0x3E00) = .ok (.instr (.jmp 0x200)) := by decide
  unfold Fetches at h
  rw [hf] at h
  cases h

theorem witness_OnlySingleOperandsFail :
    ¬ SafeStep (start whole 0x1001 [] []) ∧
    ¬ SafeStep (start based 0x1000 [(1, 0x0200)] [(0x1000, 0x1205)]) := by
  unfold SafeStep
  decide

/-- Each end of a run: an unreadable word, RETI and a double-operand word at the last decoded address and the lowest and
highest such words, the two kinds of failure, and an odd address; a vector word and a NOP are no ends. -/
theorem witness_RunEndsAtFirstStop_ends :
    (verdict (step (start whole 0xFFC0 [] [])) = .normalEnd ∧ verdict (step (at1 0xFFBE 0x1300)) = .normalEnd ∧
      verdict (step (at1 0xFFBE 0x4000)) = .normalEnd ∧ verdict (step (at1 0xFFBE 0xFFFF)) = .normalEnd) ∧
    (verdict (step (at1 0xFFC0 0x4000)) = .goesOn ∧ verdict (step (at1 0xFFBE 0x3FFF)) = .goesOn ∧
      verdict (step (at1 0xFFBE 0x1301)) = .goesOn) ∧
    (verdict (step (start whole 0x1000 [(4, 0x2000)] [(0x1000, 0x1014)])) = .failed ∧
      verdict (step (start based 0x1000 [(1, 0x0200)] [(0x1000, 0x1205)])) = .failed) ∧
    verdict (step (start whole 0x1001 [] [])) = .noMeaning := by decide

/-- A run of a NOP and then RETI ends at the second step, in the state that the first one reached. -/
theorem witness_RunEndsAtFirstStop_run :
    verdict (Sys2Proof.core.run 5 (start whole 0x1000 [] [(0x1000, 0x1301), (0x1002, 0x1300)])) = .normalEnd ∧
    leftState (Sys2Proof.core.run 5 (start whole 0x1000 [] [(0x1000, 0x1301), (0x1002, 0x1300)])) =
      some (start whole 0x1002 [] [(0x1000, 0x1301), (0x1002, 0x1300)]) := by decide

end Sys2Proof.Tests
end

section
/-! SUPPORT. An operand that can be loaded, as the operand phase finds it (40_single_operand.md R71 to R75), and the terms
of the statements, `nextAddress` and `incremented`, against the resolver's own. -/

namespace Sys2Proof.Machine

open Sys2Proof.Safety

/-! ### The operand load of a ready operand -/

/-- The repair of a ready load goes to its final address, which is even and in range. -/
theorem repairAddress_of_ready {s : State} {ea : Word} {om : Bool} {k : FailKind} (h : LoadReady s ea om)
    (hl : loadWord s ea = .error k) :
    repairAddress s.cfg ea om k = some (finalAddress s ea) ∧ isOdd (finalAddress s ea) = false ∧
      inRangeWord s.cfg (finalAddress s ea) = true := by
  obtain ⟨heven, hready⟩ := h
  rcases loadWord_error hl with ⟨rfl, hout⟩ | ⟨rfl, hin⟩
  · have hf : finalAddress s ea = ea + s.cfg.memBase := by simp [finalAddress, hout]
    rcases hready with hin | ⟨rfl, hmoved, hmovedIn⟩
    · rw [hout] at hin
      cases hin
    · rw [hf]
      exact ⟨rfl, hmoved, hmovedIn⟩
  · have hf : finalAddress s ea = ea := by simp [finalAddress, hin]
    rw [hf]
    exact ⟨rfl, heven, hin⟩

/-- A ready load leaves `loadedState`, at once or after the repair, and ends at the final address. -/
theorem loadIntoRegister_of_ready {s : State} {ea : Word} {om : Bool} (n : Reg) (h : LoadReady s ea om) :
    loadIntoRegister s n ea om = .ok (finalAddress s ea, loadedState s n ea) := by
  have heven := h.1
  cases hl : loadWord s ea with
  | ok v =>
    have hw : wordAt s ea = some v := by rw [wordAt_eq, hl]; rfl
    simp [loadIntoRegister, operandLoad, heven, hl, loadedState, hw, finalAddress, (loadWord_ok hl).1]
  | error k =>
    have hw : wordAt s ea = none := by rw [wordAt_eq, hl]; rfl
    obtain ⟨ha, hodd, hin⟩ := repairAddress_of_ready h hl
    simp [loadIntoRegister, operandLoad, heven, hl, ha, repairLoad_inRange hodd hin, loadedState, hw]

/-- The operand phase of a ready operand: the operand is in its register, and PUSH and CALL have emitted their dump. -/
theorem operandPhase_of_ready (k : SingleOp) {s : State} {o : Operand} (h : OperandReady s o) :
    operandPhase k s o =
      .ok (if k = .push ∨ k = .call then withDump s o (operandState s o) else operandState s o) := by
  cases o with
  | register n => simp [operandPhase, withDump, operandState, effectiveAddress]
  | indexed n x =>
    have hl := loadIntoRegister_of_ready n (ea := (indexedAddress s.cfg (s.reg n) x).1)
      (om := (indexedAddress s.cfg (s.reg n) x).2) h
    simp [operandPhase, hl, withDump, operandState, effectiveAddress]
  | indirect n =>
    have hl := loadIntoRegister_of_ready n (ea := s.reg n) (om := true) h
    simp [operandPhase, hl, dumpIndirect, withDump, operandState, effectiveAddress]
  | autoincrement n =>
    have hl := loadIntoRegister_of_ready n (ea := s.reg n) (om := true) h
    simp [operandPhase, hl, withDump, operandState, effectiveAddress]

/-! ### The next address and the increment -/

/-- `lin` is the address after the whole instruction, the extension word being two bytes more (10_state.md R15). -/
theorem linearSuccessor_eq_nextAddress (s : State) (o : Operand) : linearSuccessor s o = nextAddress s o := by
  cases o with
  | indexed n x => exact BitVec.add_assoc s.pc 2#16 2#16
  | register n => rfl
  | indirect n => rfl
  | autoincrement n => rfl

/-- The increment phase adds `increment`, which is 0 in the modes that have none. -/
theorem incrementPhase_eq_incremented (bw : Bool) (s : State) (o : Operand) :
    incrementPhase bw s o = incremented bw o s := by
  cases o with
  | autoincrement n => rfl
  | register n => simp [incrementPhase, incremented, increment]
  | indexed n x => simp [incrementPhase, incremented, increment]
  | indirect n => simp [incrementPhase, incremented, increment]

/-- A resolver whose mutator stops, in the statements' terms. -/
theorem resolve_eq_outcome {M : Mut} {k : SingleOp} {bw : Bool} {o : Operand} {s p : State} {e : Stop}
    (hp : operandPhase k s o = .ok p) (he : M k o.reg (singleWord k bw o) (nextAddress s o) p = .error e) :
    resolve M k bw o s = e.outcome :=
  resolve_of_mut_error hp (by rwa [linearSuccessor_eq_nextAddress])

/-- A resolver whose mutator goes on, in the statements' terms: the increment, then the result. -/
theorem resolve_eq_next {M : Mut} {k : SingleOp} {bw : Bool} {o : Operand} {s p u : State}
    (hp : operandPhase k s o = .ok p) (hu : M k o.reg (singleWord k bw o) (nextAddress s o) p = .ok u) :
    resolve M k bw o s = .next ((incremented bw o u).setPc
      (if k = .call then (incremented bw o u).reg 0 else nextAddress s o)) := by
  rw [resolve_of_ok hp (by rwa [linearSuccessor_eq_nextAddress]), resolverResult, incrementPhase_eq_incremented,
    linearSuccessor_eq_nextAddress]

end Sys2Proof.Machine
end

section
/-! SUPPORT. The contract of `Mut` (40_single_operand.md R76), for the reference mutators and for the unknown ones. -/

namespace Sys2Proof.Machine

open Sys2Proof.Safety

/-- A stack pointer at the reference stack slot has moved down, by 2. -/
theorem stackMoved_of_stackSlot {s t : State} (h : t.reg 1 = stackSlot s) : StackMoved s t :=
  ⟨2#16, by decide, h⟩

/-- A stack pointer lowered by a plan's amount has moved down: the amount is not 0. -/
theorem stackMoved_of_plan {s t : State} (p : MutPlan) (h : t.reg 1 = s.reg 1 - p.amount) : StackMoved s t :=
  ⟨p.amount, p.amount_ne_zero, h⟩

/-- The reference mutators meet the contract: PUSH and CALL by what a push leaves, the other four since they write the
operand's register and the flags only. -/
theorem refMut_meets_contract : MutContract refMut := by
  intro k n w lin s
  cases h : refMut k n w lin s with
  | error e =>
    rcases refMut_error h with rfl | rfl
    · exact .inr ⟨_, rfl, id⟩
    · exact .inl ⟨_, _, rfl, id⟩
  | ok t =>
    by_cases hp : k = .push
    · subst hp
      obtain ⟨hcfg, hpc, htrace, hinv, hsp, hstack, -⟩ := pushOnStack_ok h
      exact ⟨hcfg, hpc, htrace, hinv, fun _ => ⟨stackMoved_of_stackSlot hsp, hstack⟩, nofun⟩
    · by_cases hc : k = .call
      · subst hc
        obtain ⟨hcfg, hpc, htrace, hinv, hsp, hret, htarget⟩ := callOnStack_ok h
        exact ⟨hcfg, hpc, htrace, hinv, nofun, fun _ => ⟨stackMoved_of_stackSlot hsp, ⟨lin, hret⟩, htarget⟩⟩
      · obtain ⟨r, f, h', -⟩ := refMut_register_only hp hc n w lin s
        rw [h'] at h
        cases h
        exact ⟨rfl, rfl, rfl, id, fun hk => absurd hk hp, fun hk => absurd hk hc⟩

/-- The unknown mutators meet the contract, since every plan does. -/
theorem openMut_meets_contract (j : Nat) : MutContract (openMut j) := by
  intro k n w lin s
  cases h : openMut j k n w lin s with
  | error e =>
    obtain ⟨t, hinv, rfl | ⟨kind, -, rfl⟩⟩ := runPlan_error h
    · exact .inr ⟨t, rfl, hinv⟩
    · exact .inl ⟨t, kind, rfl, hinv⟩
  | ok t =>
    obtain ⟨hcfg, hpc, htrace, hinv, hpush, hcall⟩ := runPlan_ok h
    refine ⟨hcfg, hpc, htrace, hinv, fun hk => ?_, fun hk => ?_⟩
    · obtain ⟨hsp, hstack⟩ := hpush hk
      exact ⟨stackMoved_of_plan _ hsp, hstack⟩
    · obtain ⟨hsp, hret, htarget⟩ := hcall hk
      exact ⟨stackMoved_of_plan _ hsp, ⟨_, hret⟩, htarget⟩

end Sys2Proof.Machine
end

section
/-! The statements of 00_scope.md R6 on the OPEN parameter Mut. -/

namespace Sys2Proof.Proofs

open Sys2Proof.Machine Sys2Proof.Safety

/-- Settles O30: the operand phase gives the state of the statement, and the resolver then does what its mutator does. -/
theorem singleOperandsRunUnderEveryMut : Obligations.SingleOperandsRunUnderEveryMut := by
  intro s k bw o hready p run
  have hp : operandPhase k s o = .ok p := operandPhase_of_ready k hready
  rw [exec_ofSingle]
  exact ⟨fun e he => resolve_eq_outcome hp he, fun u hu => resolve_eq_next hp hu⟩

/-- Settles O41, by the two choices of Mut. -/
theorem everyMutOfASessionMeetsContract : Obligations.EveryMutOfASessionMeetsContract := by
  intro c
  cases hc : c.mutators with
  | reference =>
    rw [mutOf_reference hc]
    exact refMut_meets_contract
  | other j =>
    rw [mutOf_other hc]
    exact openMut_meets_contract j

end Sys2Proof.Proofs
end

section
/-! SUPPORT. What a step that goes on did, by the shape of what it fetched, and what each shape keeps: the invariant, the
parameters, the flags and the parity of the pc. -/

namespace Sys2Proof.Machine

open Sys2Proof.Safety

/-! ### A step that goes on, by what it fetched -/

/-- An instruction that goes on is a single-operand one, a jump or a NOP: RETI and the double-operand opcodes end the
step. -/
theorem exec_next_cases {i : Instr} {s t : State} (h : exec i s = .next t) :
    (∃ bw o k, i = .ofSingle bw o k ∧ resolve (mutOf s.cfg) k bw o s = .next t) ∨
    (∃ f j, i = .ofJump f j ∧ t = s.setPc (if taken s.flags j then jumpTarget s f else s.postOpcode)) ∨
    (∃ w, i = .nop w ∧ t = s.setPc s.postOpcode) := by
  rcases instr_cases i with ⟨bw, o, k, rfl⟩ | rfl | ⟨f, j, rfl⟩ | ⟨r, d, rfl⟩ | ⟨w, rfl⟩
  · rw [exec_ofSingle] at h
    exact .inl ⟨bw, o, k, rfl, h⟩
  · cases h
  · rw [exec_ofJump] at h
    cases h
    exact .inr (.inl ⟨f, j, rfl, rfl⟩)
  · rw [exec_ofDouble] at h
    cases h
  · cases h
    exact .inr (.inr ⟨w, rfl, rfl⟩)

/-- A step that goes on is a resolver run under the session's Mut, the vector shortcut, a jump or a NOP. -/
theorem step_next_cases {s t : State} (h : step s = .next t) :
    (∃ bw o k, Fetches s (.ofSingle bw o k) ∧ resolve (mutOf s.cfg) k bw o s = .next t) ∨
    (∃ w, fetch s = .ok (.vector w) ∧ t = s.setPc w) ∨
    (∃ f j, Fetches s (.ofJump f j) ∧ t = s.setPc (if taken s.flags j then jumpTarget s f else s.postOpcode)) ∨
    (∃ w, Fetches s (.nop w) ∧ t = s.setPc s.postOpcode) := by
  rcases step_next h with hvector | ⟨i, hi, hexec⟩
  · exact .inr (.inl hvector)
  · rcases exec_next_cases hexec with ⟨bw, o, k, rfl, hres⟩ | ⟨f, j, rfl, ht⟩ | ⟨w, rfl, ht⟩
    · exact .inl ⟨bw, o, k, hi, hres⟩
    · exact .inr (.inr (.inl ⟨f, j, hi, ht⟩))
    · exact .inr (.inr (.inr ⟨w, hi, ht⟩))

/-- A step that goes on is a resolver run under the session's Mut, or it sets the pc and does nothing else. -/
theorem step_next_single_or_setPc {s t : State} (h : step s = .next t) :
    (∃ bw o k, Fetches s (.ofSingle bw o k) ∧ resolve (mutOf s.cfg) k bw o s = .next t) ∨ t = s.setPc t.pc := by
  rcases step_next_cases h with hsingle | ⟨w, -, rfl⟩ | ⟨f, j, -, rfl⟩ | ⟨w, -, rfl⟩
  · exact .inl hsingle
  · exact .inr rfl
  · exact .inr rfl
  · exact .inr rfl

/-- A step that goes on was fetched at an even address. -/
theorem even_pc_of_step_next {s t : State} (h : step s = .next t) : isOdd s.pc = false := by
  cases ho : isOdd s.pc with
  | false => rfl
  | true =>
    have hf : fetch s = .error (endMisaligned s) := by simp [fetch, fetchOpcode, ho]
    rw [step_of_error hf] at h
    exact absurd h (Stop.outcome_ne_next _ _)

/-- The vector shortcut is taken in the vector region only. -/
theorem inVectorRegion_of_fetch_vector {s : State} {w : Word} (h : fetch s = .ok (.vector w)) :
    inVectorRegion s.pc = true := by
  rcases fetch_cases s with ⟨-, hf⟩ | ⟨-, -, hf⟩ | ⟨-, _, -, hv, -⟩ | ⟨-, _, -, -, -, _, -, hf⟩ | ⟨-, _, _, -, -, hf⟩
  case inr.inr.inl => exact hv
  all_goals cases h.symm.trans hf

/-! ### The invariant and the parameters -/

/-- The invariant speaks of the parameters and the memory only. -/
theorem inv_congr {s t : State} (hcfg : t.cfg = s.cfg) (hmem : t.mem = s.mem) : Inv t ↔ Inv s := by
  simp only [Safety.Inv, WindowHolds, hcfg, hmem]

/-- The operand load and its repair, which stores in range only, keep the invariant. -/
theorem operandPhase_keeps_inv {k : SingleOp} {s p : State} {o : Operand} (h : operandPhase k s o = .ok p)
    (hi : Inv s) : Inv p := by
  obtain ⟨hcfg, -, -, -, hmem, -⟩ := operandPhase_ok h
  rcases hmem with ⟨-, hmem⟩ | ⟨a, -, hr, hmem⟩
  · exact (inv_congr hcfg hmem).mpr hi
  · exact (inv_congr (s := s.setWord a sentinel) hcfg hmem).mpr (inv_setWord sentinel hi hr)

/-- A mutator that meets the contract and goes on keeps the parameters and the invariant. -/
theorem mutContract_ok {M : Mut} (hM : MutContract M) {k : SingleOp} {n : Reg} {w lin : Word} {s t : State}
    (h : M k n w lin s = .ok t) : t.cfg = s.cfg ∧ (Inv s → Inv t) := by
  have hc := hM k n w lin s
  rw [h] at hc
  obtain ⟨hcfg, -, -, hinv, -⟩ := hc
  exact ⟨hcfg, hinv⟩

/-- A resolver run that goes on keeps the parameters and the invariant, for every Mut that meets the contract: the operand
phase and the mutator do, the increment and the result write registers and the pc. -/
theorem resolve_next_keeps {M : Mut} (hM : MutContract M) {k : SingleOp} {bw : Bool} {o : Operand} {s t : State}
    (h : resolve M k bw o s = .next t) : t.cfg = s.cfg ∧ (Inv s → Inv t) := by
  obtain ⟨p, u, hp, hu, rfl⟩ := resolve_next h
  obtain ⟨hcfg, hinv⟩ := mutContract_ok hM hu
  constructor
  · simp [hcfg, (operandPhase_ok hp).1]
  · intro hi
    simpa using hinv (operandPhase_keeps_inv hp hi)

/-! ### The flags -/

/-- The reference SWPB, PUSH and CALL change no flag. -/
theorem refMut_flags {k : SingleOp} (hk : ¬ (k = .rrc ∨ k = .rra ∨ k = .sxt)) {n : Reg} {w lin : Word} {s t : State}
    (h : refMut k n w lin s = .ok t) : t.flags = s.flags := by
  cases k with
  | rrc => exact absurd (.inl rfl) hk
  | rra => exact absurd (.inr (.inl rfl)) hk
  | sxt => exact absurd (.inr (.inr rfl)) hk
  | swpb =>
    cases h
    rfl
  | push =>
    rcases mutPush_cases n w lin s with ⟨-, -, h'⟩ | h' | ⟨-, -, -, h'⟩ | ⟨-, -, h'⟩ <;> cases h.symm.trans h' <;> rfl
  | call =>
    rcases mutCall_cases n w lin s with ⟨-, h'⟩ | ⟨-, -, h'⟩ | ⟨-, -, h'⟩ <;> cases h.symm.trans h'
    rfl

/-- A resolver run that goes on leaves the flags that its mutator leaves, which found the step's. -/
theorem resolve_next_flags {M : Mut} {k : SingleOp} {bw : Bool} {o : Operand} {s t : State}
    (h : resolve M k bw o s = .next t)
    (hM : ∀ n w lin p u, M k n w lin p = .ok u → u.flags = p.flags) : t.flags = s.flags := by
  obtain ⟨p, u, hp, hu, rfl⟩ := resolve_next h
  obtain ⟨-, hflags, -⟩ := operandPhase_ok hp
  simp [hM _ _ _ _ _ hu, hflags]

/-! ### The parity of the pc -/

/-- Twice a word added to an even address gives an even address. -/
theorem isOdd_add_two_mul {a : Word} (h : isOdd a = false) (b : Word) : isOdd (a + 2#16 * b) = false := by
  simp [isOdd, BitVec.toNat_add, BitVec.toNat_mul] at *
  omega

/-- The post-opcode address of an even pc is even. -/
theorem isOdd_postOpcode {s : State} (h : isOdd s.pc = false) : isOdd s.postOpcode = false :=
  isOdd_add_two h

/-- The linear successor of an even pc is even. -/
theorem isOdd_linearSuccessor {s : State} (h : isOdd s.pc = false) (o : Operand) :
    isOdd (linearSuccessor s o) = false := by
  cases o with
  | register n => exact isOdd_postOpcode h
  | indexed n x => exact isOdd_add_two (isOdd_postOpcode h)
  | indirect n => exact isOdd_postOpcode h
  | autoincrement n => exact isOdd_postOpcode h

/-- The target of a jump at an even pc is even. -/
theorem isOdd_jumpTarget {s : State} (h : isOdd s.pc = false) (f : BitVec 10) : isOdd (jumpTarget s f) = false :=
  isOdd_add_two_mul (isOdd_postOpcode h) (jumpOffset f)

/-- A resolver run that goes on has the linear successor for its next address, but for CALL. -/
theorem resolve_next_pc {M : Mut} {k : SingleOp} {bw : Bool} {o : Operand} {s t : State}
    (h : resolve M k bw o s = .next t) (hk : k ≠ .call) : t.pc = linearSuccessor s o := by
  obtain ⟨p, u, -, -, rfl⟩ := resolve_next h
  simp [hk]

end Sys2Proof.Machine
end

section
/-! The statements of 10_state.md. -/

namespace Sys2Proof.Proofs

open Sys2Proof.Machine Sys2Proof.Safety

/-- Settles O48: the session's Mut meets the contract, so a resolver run keeps the invariant; every other step that goes on
sets the pc only. -/
theorem stepKeepsInvariant : Obligations.StepKeepsInvariant := by
  intro s t hi h
  rcases step_next_single_or_setPc h with ⟨bw, o, k, -, hres⟩ | ht
  · exact (resolve_next_keeps (everyMutOfASessionMeetsContract s.cfg) hres).2 hi
  · rw [ht, inv_setPc]
    exact hi

/-- Settles O45: the step is no resolver run. -/
theorem othersChangeOnlyThePc : Obligations.OthersChangeOnlyThePc := by
  intro s t h hnone
  rcases step_next_single_or_setPc h with ⟨bw, o, k, hfetch, -⟩ | ht
  · exact absurd hfetch (hnone bw o k)
  · exact ht

/-- Settles O51: the session's Mut meets the contract, which keeps the parameters. -/
theorem stepKeepsParameters : Obligations.StepKeepsParameters := by
  intro s t h
  rcases step_next_single_or_setPc h with ⟨bw, o, k, -, hres⟩ | ht
  · exact (resolve_next_keeps (everyMutOfASessionMeetsContract s.cfg) hres).1
  · rw [ht, State.setPc_cfg]

/-- Settles O52: a step that changes a flag is a resolver run, and the reference SWPB, PUSH and CALL leave the flags. -/
theorem flagWriters : Obligations.FlagWriters := by
  intro s t h hflags
  rcases step_next_single_or_setPc h with ⟨bw, o, k, hfetch, hres⟩ | ht
  · refine ⟨bw, o, k, hfetch, fun href => ?_⟩
    by_contra hk
    rw [mutOf_reference href] at hres
    exact hflags (resolve_next_flags hres fun _ _ _ _ _ => refMut_flags hk)
  · rw [ht] at hflags
    exact absurd rfl hflags

/-- Settles O56: a step that goes on was fetched at an even address, and below the vector region its next address is the
linear successor, a jump's target or the post-opcode address. -/
theorem pcStaysEven : Obligations.PcStaysEven := by
  intro s t h hbelow hnoCall
  have heven := even_pc_of_step_next h
  rcases step_next_cases h with ⟨bw, o, k, hfetch, hres⟩ | ⟨w, hfetch, -⟩ | ⟨f, j, -, rfl⟩ | ⟨w, -, rfl⟩
  · have hk : k ≠ .call := by
      rintro rfl
      exact hnoCall bw o hfetch
    rw [resolve_next_pc hres hk]
    exact isOdd_linearSuccessor heven o
  · have hv := inVectorRegion_of_fetch_vector hfetch
    rw [(inVectorRegion_iff s.pc).mpr hbelow] at hv
    cases hv
  · rw [State.setPc_pc]
    split
    · exact isOdd_jumpTarget heven f
    · exact isOdd_postOpcode heven
  · exact isOdd_postOpcode heven

/-- Settles O46: the window of the launch is the whole address space, and nothing is written. -/
theorem resetMeetsInvariant : Obligations.ResetMeetsInvariant :=
  ⟨by decide, Memory.wf_nil, nofun⟩

/-- Settles O47: the fetch at 0x1000 is even and in range, and reads an unwritten word. -/
theorem emptyLaunchEndsAtOnce : Obligations.EmptyLaunchEndsAtOnce := by
  have hfetch : fetch State.reset = .error (endNoResult .fetchUnreadable State.reset) := by decide
  exact ⟨fun _ => rfl, step_of_error hfetch⟩

end Sys2Proof.Proofs
end

section
/-! SUPPORT. The window's test as an order on numbers, and the word accesses of the MEM port by what they find
(20_memory.md R31 to R34). -/

namespace Sys2Proof.Machine

/-- A word is in range when its first byte is not below the window and its second one not above it. -/
theorem inRangeWord_iff (c : Config) (a : Word) :
    inRangeWord c a = true ↔ c.memBase.toNat ≤ a.toNat ∧ a.toNat + 1 < c.memBase.toNat + c.memSize := by
  simp only [inRangeWord, inRangeByte, Bool.and_eq_true, decide_eq_true_eq]
  omega

/-- The word of two bytes has the low byte as its units and the high byte as its 256s. -/
theorem toNat_wordOfBytes (lo hi : Byte) : (wordOfBytes lo hi).toNat = lo.toNat + 256 * hi.toNat := by
  rw [wordOfBytes, BitVec.toNat_append, ← Nat.shiftLeft_add_eq_or_of_lt lo.isLt, Nat.shiftLeft_eq]
  omega

/-- A load in range of two written bytes gives their word. -/
theorem loadWord_of_written {s : State} {a : Word} {lo hi : Byte} (hr : inRangeWord s.cfg a = true)
    (hlo : s.byte a.toNat = some lo) (hhi : s.byte (a.toNat + 1) = some hi) :
    loadWord s a = .ok (wordOfBytes lo hi) := by
  simp [loadWord, hr, hlo, hhi]

/-- A load in range with an unwritten byte reports it: it cannot have succeeded, and the range test has passed. -/
theorem loadWord_of_unwritten {s : State} {a : Word} (hr : inRangeWord s.cfg a = true)
    (hnone : s.byte a.toNat = none ∨ s.byte (a.toNat + 1) = none) : loadWord s a = .error .uninitialized := by
  cases hl : loadWord s a with
  | ok w =>
    obtain ⟨-, hlo, hhi⟩ := loadWord_ok hl
    simp [hlo, hhi] at hnone
  | error k =>
    rcases loadWord_error hl with ⟨-, hout⟩ | ⟨rfl, -⟩
    · cases hr.symm.trans hout
    · rfl

/-- A store out of range reports it. -/
theorem storeWord_outOfRange {s : State} {a : Word} (w : Word) (hr : inRangeWord s.cfg a = false) :
    storeWord s a w = .error .outOfRange := by
  simp [storeWord, hr]

/-- A store in range writes the word's two bytes. -/
theorem storeWord_inRange {s : State} {a : Word} (w : Word) (hr : inRangeWord s.cfg a = true) :
    storeWord s a w = .ok (s.setWord a w) := by
  simp [storeWord, hr]

end Sys2Proof.Machine
end

section
/-! SUPPORT. The fetch of a word without an extension word (30_encoding.md R57), and the outcomes that a step can have
(60_exceptions.md R150). -/

namespace Sys2Proof.Machine

/-- A readable one-word instruction at an even address below the vector region is fetched and decoded. -/
theorem fetch_of_oneWord {s : State} {w : Word} (heven : isOdd s.pc = false) (hbelow : inVectorRegion s.pc = false)
    (hl : loadWord s s.pc = .ok w) (hone : needsExtension w = false) :
    fetch s = .ok (.instr (decodeWords w 0#16)) :=
  fetch_instr (by simp [fetchOpcode, heven, hl]) hbelow (by simp [fetchExtension, hone])

/-- The outcomes of an instruction: a next state, a normal end, a failure of a named kind, or the one refusal. -/
theorem exec_cases (i : Instr) (s : State) :
    (∃ t, exec i s = .next t) ∨ (∃ r, exec i s = .fault (.noResult r s)) ∨ exec i s = .fault (.retiPlaceholder s) ∨
    (∃ k t, k ≠ .other ∧ exec i s = .fault (.fatal k t)) ∨ ∃ t, exec i s = .refused (.misaligned t) := by
  rcases instr_cases i with ⟨bw, o, k, rfl⟩ | rfl | ⟨f, j, rfl⟩ | ⟨r, d, rfl⟩ | ⟨w, rfl⟩
  · rw [exec_ofSingle]
    rcases resolve_cases s.cfg k bw o s with hnext | hrefused | hfatal
    · exact .inl hnext
    · exact .inr (.inr (.inr (.inr hrefused)))
    · exact .inr (.inr (.inr (.inl hfatal)))
  · exact .inr (.inr (.inl rfl))
  · exact .inl ⟨_, exec_ofJump j f s⟩
  · exact .inr (.inl ⟨_, exec_ofDouble d r s⟩)
  · exact .inl ⟨_, rfl⟩

/-- The outcomes of a step are those of an instruction: a fetch that ends the step ends it in one of the same ways. -/
theorem step_cases (s : State) :
    (∃ t, step s = .next t) ∨ (∃ r, step s = .fault (.noResult r s)) ∨ step s = .fault (.retiPlaceholder s) ∨
    (∃ k t, k ≠ .other ∧ step s = .fault (.fatal k t)) ∨ ∃ t, step s = .refused (.misaligned t) := by
  rcases fetch_cases s with ⟨-, hf⟩ | ⟨-, -, hf⟩ | ⟨-, w, -, -, hf⟩ | ⟨-, w, -, -, -, k, hk, hf⟩ | ⟨-, w, x, -, -, hf⟩
  · exact .inr (.inr (.inr (.inr ⟨s, step_of_error hf⟩)))
  · exact .inr (.inl ⟨_, step_of_error hf⟩)
  · exact .inl ⟨_, step_of_vector hf⟩
  · exact .inr (.inr (.inr (.inl ⟨k, s, hk, step_of_error hf⟩)))
  · rw [step_of_instr hf]
    exact exec_cases (decodeWords w x) s

end Sys2Proof.Machine
end

section
/-! The statements of 20_memory.md. -/

namespace Sys2Proof.Proofs

open Sys2Proof.Machine

/-- Settles O11: the sentinel is the DADD word with the bits 0xBCD, and has no extension word. -/
theorem fetchedSentinelEndsTheRun : Obligations.FetchedSentinelEndsTheRun := by
  have hclass : classify sentinel = .double .dadd := classify_doubleWord .dadd 0xBCD
  refine ⟨hclass, fun s heven hbelow hl => ?_⟩
  have hdecode : decodeWords sentinel 0#16 = .dadd 0xBCD := by
    rw [decodeWords, hclass]
    rfl
  have hfetch : fetch s = .ok (.instr (.dadd 0xBCD)) := by
    rw [← hdecode]
    exact fetch_of_oneWord heven ((inVectorRegion_iff s.pc).mpr hbelow) hl (by decide)
  exact ⟨hfetch, (step_of_instr hfetch).trans (exec_ofDouble .dadd 0xBCD s)⟩

/-- Settles O18: the window's test on numbers is the load's first test, and the bytes decide the rest. -/
theorem loadWordTestsInOrder : Obligations.LoadWordTestsInOrder := by
  intro s a inRange
  have hr : inRangeWord s.cfg a = true ↔ inRange := inRangeWord_iff s.cfg a
  refine ⟨fun hout => ?_, fun hin hnone => ?_, fun hin lo hi hlo hhi => ?_⟩
  · exact loadWord_outOfRange (Bool.eq_false_iff.mpr fun h => hout (hr.mp h))
  · exact loadWord_of_unwritten (hr.mpr hin) hnone
  · exact ⟨_, loadWord_of_written (hr.mpr hin) hlo hhi, toNat_wordOfBytes lo hi⟩

/-- Settles O19: a store in range leaves `setWord`, which writes the two bytes of the word and nothing else. -/
theorem storeThenLoad : Obligations.StoreThenLoad := by
  intro s a w
  refine ⟨fun hout => storeWord_outOfRange w hout, fun hin => ⟨s.setWord a w, storeWord_inRange w hin, ?_⟩⟩
  refine ⟨loadWord_setWord_same s w hin, ⟨loByte w, hiByte w, ?_⟩, fun i hi => ?_, rfl⟩
  · exact ⟨State.byte_setWord_low s a w, State.byte_setWord_high s a w, toNat_loByte w, toNat_hiByte w⟩
  · exact State.byte_setWord_ne s w (fun h => hi (.inl h)) fun h => hi (.inr h)

/-- Settles O58: among the outcomes of a step there is neither. -/
theorem stopsAreTheSpecs : Obligations.StopsAreTheSpecs := by
  intro s
  rcases step_cases s with ⟨t, h⟩ | ⟨r, h⟩ | h | ⟨k, t, hk, h⟩ | ⟨t, h⟩ <;> rw [h]
  · exact ⟨nofun, nofun⟩
  · exact ⟨nofun, nofun⟩
  · exact ⟨nofun, nofun⟩
  · refine ⟨fun u hu => hk ?_, nofun⟩
    cases hu
    rfl
  · refine ⟨nofun, fun r hr => ⟨t, ?_⟩⟩
    cases hr
    rfl

end Sys2Proof.Proofs
end

section
/-! SUPPORT. The decoder and the encoder against each other (30_encoding.md R50 to R54, R59): the fields of a word as
numbers, a word rebuilt from its fields, the operand of a single-operand word, and the decoder on the bytes of words. -/

namespace Sys2Proof

/-! ### The fields of a word, as numbers -/

theorem toNat_byteFlag (w : Word) : (byteFlag w).toNat = w.toNat / 64 % 2 := by
  rw [byteFlag, BitVec.getLsbD, Nat.testBit_eq_decide_div_mod_eq]
  rcases Nat.mod_two_eq_zero_or_one (w.toNat / 64) with h | h <;> simp [h]

theorem toNat_asField (w : Word) : (asField w).toNat = w.toNat / 16 % 4 := by
  rw [asField, BitVec.extractLsb'_toNat, Nat.shiftRight_eq_div_pow]

theorem val_regField (w : Word) : (regField w).val = w.toNat % 16 := by
  simp [regField]

theorem toNat_jumpField (w : Word) : (jumpField w).toNat = w.toNat % 1024 := by
  simp [jumpField]

theorem toNat_unexaminedBits (w : Word) : (unexaminedBits w).toNat = w.toNat % 4096 := by
  simp [unexaminedBits]

/-! ### The operand of a word -/

theorem asBits_operandOf (w x : Word) : (operandOf w x).asBits = asField w := by
  have hlast : ∀ a : BitVec 2, a ≠ 0#2 → a ≠ 1#2 → a ≠ 2#2 → 3#2 = a := by decide
  unfold operandOf
  split_ifs with h0 h1 h2
  exacts [h0.symm, h1.symm, h2.symm, hlast _ h0 h1 h2]

theorem reg_operandOf (w x : Word) : (operandOf w x).reg = regField w := by
  unfold operandOf
  split_ifs <;> rfl

/-- A word whose mode is not indexed has an operand without an extension word. -/
theorem operandOf_ext_irrelevant {w : Word} (h : asField w ≠ 1#2) (x y : Word) : operandOf w x = operandOf w y := by
  simp [operandOf, h]

/-- The extension word of a decoded single-operand instruction is there exactly in indexed mode. -/
theorem ext?_ofSingle_operandOf (w x : Word) (bw : Bool) (k : SingleOp) :
    (Instr.ofSingle bw (operandOf w x) k).ext? = if asField w = 1 then some x else none := by
  have hop : (Instr.ofSingle bw (operandOf w x) k).operand? = some (operandOf w x) := by cases k <;> rfl
  rw [Instr.ext?, hop, operandOf]
  split_ifs <;> simp_all

/-- The operand that the encoder wrote is read back, its own extension word standing after the opcode word. -/
theorem operandOf_singleWord (k : SingleOp) (bw : Bool) (o : Operand) :
    operandOf (singleWord k bw o) ((Instr.ofSingle bw o k).ext?.getD 0#16) = o := by
  have hop : (Instr.ofSingle bw o k).operand? = some o := by cases k <;> rfl
  rw [Instr.ext?, hop, operandOf, asField_singleWord, regField_singleWord]
  cases o <;> rfl

/-! ### A word rebuilt from its fields -/

theorem singleWord_fields {w : Word} {k : SingleOp} (h : classify w = .single k) (x : Word) :
    singleWord k (byteFlag w) (operandOf w x) = w := by
  have hq := toNat_of_classify_single h
  apply BitVec.eq_of_toNat_eq
  rw [toNat_singleWord, asBits_operandOf, reg_operandOf, toNat_byteFlag, toNat_asField, val_regField]
  omega

theorem jumpWord_fields {w : Word} {j : JumpOp} (h : classify w = .jump j) : jumpWord j (jumpField w) = w := by
  have hq := toNat_of_classify_jump h
  apply BitVec.eq_of_toNat_eq
  rw [toNat_jumpWord, toNat_jumpField]
  omega

theorem doubleWord_fields {w : Word} {d : DoubleOp} (h : classify w = .double d) :
    doubleWord d (unexaminedBits w) = w := by
  have hq := toNat_of_classify_double h
  apply BitVec.eq_of_toNat_eq
  rw [toNat_doubleWord, toNat_unexaminedBits]
  omega

/-! ### Instructions by family -/

theorem opcodeWord_ofSingle (bw : Bool) (o : Operand) (k : SingleOp) :
    opcodeWord (.ofSingle bw o k) = singleWord k bw o := by
  cases k <;> rfl

theorem opcodeWord_ofJump (f : BitVec 10) (j : JumpOp) : opcodeWord (.ofJump f j) = jumpWord j f := by
  cases j <;> rfl

theorem opcodeWord_ofDouble (rest : BitVec 12) (d : DoubleOp) :
    opcodeWord (.ofDouble rest d) = doubleWord d rest := by
  cases d <;> rfl

theorem wellFormed_ofSingle (bw : Bool) (o : Operand) (k : SingleOp) :
    (Instr.ofSingle bw o k).wellFormed = true := by
  cases k <;> rfl

theorem wellFormed_ofJump (f : BitVec 10) (j : JumpOp) : (Instr.ofJump f j).wellFormed = true := by
  cases j <;> rfl

theorem wellFormed_ofDouble (rest : BitVec 12) (d : DoubleOp) : (Instr.ofDouble rest d).wellFormed = true := by
  cases d <;> rfl

/-! ### Decoding a word, then encoding it -/

/-- A decoded instruction stands for a word: only a word of R60's list becomes a NOP. -/
theorem wellFormed_decodeWords (w x : Word) : (decodeWords w x).wellFormed = true := by
  rcases classify_cases w with ⟨k, hc, -⟩ | ⟨hc, -⟩ | ⟨j, hc, -⟩ | ⟨d, hc, -⟩ | ⟨hc, hf⟩ <;> rw [decodeWords, hc]
  · exact wellFormed_ofSingle _ _ k
  · rfl
  · exact wellFormed_ofJump _ j
  · exact wellFormed_ofDouble _ d
  · exact hf

/-- The opcode word of a decoded instruction is the word it was decoded from. -/
theorem opcodeWord_decodeWords (w x : Word) : opcodeWord (decodeWords w x) = w := by
  rcases classify_cases w with ⟨k, hc, -⟩ | ⟨hc, hw⟩ | ⟨j, hc, -⟩ | ⟨d, hc, -⟩ | ⟨hc, -⟩ <;> rw [decodeWords, hc]
  · exact (opcodeWord_ofSingle _ _ k).trans (singleWord_fields hc x)
  · exact hw.symm
  · exact (opcodeWord_ofJump _ j).trans (jumpWord_fields hc)
  · exact (opcodeWord_ofDouble _ d).trans (doubleWord_fields hc)
  · rfl

/-- The length test of a single-operand word reads its mode. -/
theorem needsExtension_of_single {w : Word} {k : SingleOp} (h : classify w = .single k) :
    needsExtension w = decide (asField w = 1) := by
  rw [Bool.eq_iff_iff, needsExtension_iff, decide_eq_true_iff]
  exact and_iff_right ⟨k, h⟩

/-- A word of no single-operand row has no extension word. -/
theorem needsExtension_of_not_single {w : Word} (h : ∀ k, classify w ≠ .single k) : needsExtension w = false := by
  rw [Bool.eq_false_iff, Ne, needsExtension_iff]
  rintro ⟨⟨k, hk⟩, -⟩
  exact h k hk

/-- A decoded instruction has the extension word exactly where the length test says so. -/
theorem ext?_decodeWords (w x : Word) : (decodeWords w x).ext? = if needsExtension w then some x else none := by
  rw [decodeWords]
  cases hc : classify w with
  | single k => simp [needsExtension_of_single hc, ext?_ofSingle_operandOf]
  | jump j =>
    rw [needsExtension_of_not_single (by simp [hc])]
    cases j <;> rfl
  | double d =>
    rw [needsExtension_of_not_single (by simp [hc])]
    cases d <;> rfl
  | reti =>
    rw [needsExtension_of_not_single (by simp [hc])]
    rfl
  | nop =>
    rw [needsExtension_of_not_single (by simp [hc])]
    rfl

/-- The second word does not matter to a word that has none. -/
theorem decodeWords_ext_irrelevant {w : Word} (h : needsExtension w = false) (x y : Word) :
    decodeWords w x = decodeWords w y := by
  rw [decodeWords, decodeWords]
  cases hc : classify w with
  | single k =>
    rw [needsExtension_of_single hc, decide_eq_false_iff_not] at h
    simp only [operandOf_ext_irrelevant h x y]
  | jump j => rfl
  | double d => rfl
  | reti => rfl
  | nop => rfl

/-! ### Encoding an instruction, then decoding it -/

/-- A well-formed instruction is decoded from its opcode word and its extension word. -/
theorem decodeWords_opcodeWord {i : Instr} (h : i.wellFormed = true) :
    decodeWords (opcodeWord i) (i.ext?.getD 0#16) = i := by
  rcases Machine.instr_cases i with ⟨bw, o, k, rfl⟩ | rfl | ⟨f, j, rfl⟩ | ⟨r, d, rfl⟩ | ⟨w, rfl⟩ <;> rw [decodeWords]
  · simp only [opcodeWord_ofSingle, classify_singleWord, byteFlag_singleWord, operandOf_singleWord]
  · rfl
  · simp only [opcodeWord_ofJump, classify_jumpWord, jumpField_jumpWord]
  · simp only [opcodeWord_ofDouble, classify_doubleWord, unexaminedBits_doubleWord]
  · rw [opcodeWord, classify_fallback h]

/-- The bytes of an opcode word, and of its extension word where the length test asks for one (30_encoding.md R50). -/
def instrBytes (w x : Word) : List Byte := wordBytes w ++ if needsExtension w then wordBytes x else []

/-- The decoder reads one instruction from its bytes and leaves the bytes after it. -/
theorem decode_instrBytes (w x : Word) (rest : List Byte) :
    decode (instrBytes w x ++ rest) = .ok (decodeWords w x, rest) := by
  cases hn : needsExtension w with
  | true => simp [instrBytes, wordBytes, decode, hn]
  | false => simp [instrBytes, wordBytes, decode, hn, decodeWords_ext_irrelevant hn x 0#16]

/-- The encoder writes an opcode word and the extension word that its length test asks for. -/
theorem encodeBytes_eq_instrBytes {i : Instr} (h : i.wellFormed = true) :
    encodeBytes i = instrBytes (opcodeWord i) (i.ext?.getD 0#16) := by
  obtain ⟨-, hn⟩ := Laws.Classified.ofInstr i h
  rw [encodeBytes, encode, instrBytes, hn]
  cases i.ext? <;> simp

/-! ### The rows of the rule list -/

/-- Two rows that match one word agree on the bits that both of them test. -/
theorem value_and_mask_of_matches {w : Word} {r q : DispatchRule} (hr : r.matches w = true)
    (hq : q.matches w = true) : r.value &&& q.mask = q.value &&& r.mask := by
  simp only [DispatchRule.matches, beq_iff_eq] at hr hq
  rw [← hr, ← hq, BitVec.and_assoc, BitVec.and_assoc, BitVec.and_comm r.mask]

/-- Any two of rows 1 to 27 differ in a bit that both of them test (30_encoding.md R61). -/
theorem rule_eq_of_value_and_mask :
    ∀ r ∈ singleOperandRules ++ (jumpRules ++ doubleOperandRules),
      ∀ q ∈ singleOperandRules ++ (jumpRules ++ doubleOperandRules),
        r.value &&& q.mask = q.value &&& r.mask → r = q := by
  decide

/-- A word reaches the fallback exactly when R60 lists it. -/
theorem classify_nop_iff (w : Word) : classify w = .nop ↔ isFallbackWord w = true := by
  refine ⟨fun h => ?_, classify_fallback⟩
  rcases classify_cases w with ⟨k, hc, -⟩ | ⟨hc, -⟩ | ⟨j, hc, -⟩ | ⟨d, hc, -⟩ | ⟨-, hf⟩
  case inr.inr.inr.inr => exact hf
  all_goals cases hc.symm.trans h

/-- RETI's row is matched by its one word. -/
theorem classify_reti_iff (w : Word) : classify w = .reti ↔ w = 0x1300 := by
  refine ⟨fun h => ?_, fun h => h ▸ classify_reti⟩
  rcases classify_cases w with ⟨k, hc, -⟩ | ⟨-, hw⟩ | ⟨j, hc, -⟩ | ⟨d, hc, -⟩ | ⟨hc, -⟩
  case inr.inl => exact hw
  all_goals cases hc.symm.trans h

end Sys2Proof
end

section
/-! SUPPORT. The fetch by what the loads of the opcode word and of the extension word find (30_encoding.md R57, R59). -/

namespace Sys2Proof.Machine

/-- A fetch at an odd address is refused. -/
theorem fetch_odd {s : State} (hodd : isOdd s.pc = true) : fetch s = .error (endMisaligned s) := by
  simp [fetch, fetchOpcode, hodd]

/-- A fetch of an unreadable word gives no result. -/
theorem fetch_unreadable {s : State} {k : FailKind} (heven : isOdd s.pc = false) (hl : loadWord s s.pc = .error k) :
    fetch s = .error (endNoResult .fetchUnreadable s) := by
  rcases loadWord_error hl with ⟨rfl, -⟩ | ⟨rfl, -⟩ <;> simp [fetch, fetchOpcode, heven, hl]

/-- A readable word at an even address is the opcode word. -/
theorem fetchOpcode_of_loadWord {s : State} {w : Word} (heven : isOdd s.pc = false) (hl : loadWord s s.pc = .ok w) :
    fetchOpcode s = .ok w := by
  simp [fetchOpcode, heven, hl]

/-- A failing load of the extension word, which stands at an even address, is fatal. -/
theorem fetchExtension_error {s : State} {w : Word} {k : FailKind} (heven : isOdd s.pc = false)
    (hn : needsExtension w = true) (hx : loadWord s (s.pc + 2) = .error k) :
    fetchExtension s w = .error (endFatal k s) := by
  have hx' : loadWord s s.postOpcode = .error k := hx
  simp [fetchExtension, hn, memReadWord, isOdd_postOpcode heven, hx']

/-- A readable extension word, which stands at an even address, is the second word. -/
theorem fetchExtension_of_loadWord {s : State} {w x : Word} (heven : isOdd s.pc = false)
    (hn : needsExtension w = true) (hx : loadWord s (s.pc + 2) = .ok x) : fetchExtension s w = .ok x := by
  have hx' : loadWord s s.postOpcode = .ok x := hx
  simp [fetchExtension, hn, memReadWord, isOdd_postOpcode heven, hx']

/-- An instruction that can be read, at an even address below the vector region, is fetched and decoded. -/
theorem fetch_of_words {s : State} {w x : Word} (heven : isOdd s.pc = false) (hbelow : s.pc.toNat < 0xFFC0)
    (hl : loadWord s s.pc = .ok w) (hx : needsExtension w = true → loadWord s (s.pc + 2) = .ok x) :
    fetch s = .ok (.instr (decodeWords w x)) := by
  have hv := (inVectorRegion_iff s.pc).mpr hbelow
  cases hn : needsExtension w with
  | true =>
    exact fetch_instr (fetchOpcode_of_loadWord heven hl) hv (fetchExtension_of_loadWord heven hn (hx hn))
  | false =>
    rw [decodeWords_ext_irrelevant hn x 0#16]
    exact fetch_of_oneWord heven hv hl hn

end Sys2Proof.Machine
end

section
/-! SUPPORT. The offset of a jump as a number (30_encoding.md R56). -/

namespace Sys2Proof.Machine

/-- Bits 15 to 9 of a word set. -/
theorem toNat_or_FE00 (w : Word) : (w ||| 0xFE00#16).toNat = 0xFE00 + w.toNat % 512 := by
  have hcompl : w ||| 0xFE00#16 = ~~~(~~~w &&& 0x01FF#16) := by
    rw [BitVec.not_and, BitVec.not_not]
    rfl
  have hlow : (~~~w &&& 0x01FF#16).toNat = (65535 - w.toNat) % 512 := by
    rw [BitVec.toNat_and, BitVec.toNat_not]
    exact Nat.and_two_pow_sub_one_eq_mod _ 9
  have hw := w.isLt
  rw [hcompl, BitVec.toNat_not, hlow]
  omega

/-- The offset: `f - 1` wraps at 0 only, and has its bit 9 set from `f = 0x201` on. -/
theorem toNat_jumpOffset (f : BitVec 10) :
    (jumpOffset f).toNat =
      if f.toNat = 0 then 0xFFFF else if f.toNat ≤ 0x200 then f.toNat - 1 else 0xFE00 + (f.toNat - 0x201) := by
  have hf := f.isLt
  have hsub : (f.zeroExtend 16 - 1#16).toNat = (65535 + f.toNat) % 65536 := by
    rw [BitVec.toNat_sub, BitVec.toNat_setWidth, Nat.mod_eq_of_lt (a := f.toNat) (by omega)]
    rfl
  have hbit : (f.zeroExtend 16 - 1#16).getLsbD 9 = decide ((65535 + f.toNat) % 65536 / 512 % 2 = 1) := by
    rw [BitVec.getLsbD, Nat.testBit_eq_decide_div_mod_eq, hsub]
  simp only [jumpOffset, hbit, decide_eq_true_iff]
  by_cases hset : (65535 + f.toNat) % 65536 / 512 % 2 = 1
  · rw [if_pos hset, toNat_or_FE00, hsub]
    split_ifs <;> omega
  · rw [if_neg hset, hsub]
    split_ifs <;> omega

end Sys2Proof.Machine
end

section
/-! The statements of 30_encoding.md. -/

namespace Sys2Proof.Proofs

open Sys2Proof.Machine

/-- Settles O1: the encoder writes the bytes that the decoder reads, and the fields of the encoder's word are the
instruction's. -/
theorem decodeOfEncode : Obligations.DecodeOfEncode := by
  intro i rest h
  rw [encodeBytes_eq_instrBytes h, decode_instrBytes, decodeWords_opcodeWord h]

/-- Settles O2: the word is rebuilt from its fields, and the extension word is kept where the length test asks for it. -/
theorem encodeOfDecode : Obligations.EncodeOfDecode := by
  intro w x
  refine ⟨wellFormed_decodeWords w x, ?_⟩
  rw [encode, ext?_decodeWords, opcodeWord_decodeWords]
  cases needsExtension w <;> rfl

/-- Settles O3: two rows that match one word agree on the bits that both test, and any two rows differ in one of them. -/
theorem rowsAreDisjoint : Obligations.RowsAreDisjoint :=
  fun _ r q hr hq hrw hqw => rule_eq_of_value_and_mask r hr q hq (value_and_mask_of_matches hrw hqw)

/-- Settles O4, `isFallbackWord` being R60's list. -/
theorem fallbackWordsAreR60s : Obligations.FallbackWordsAreR60s :=
  fun w => (classify_nop_iff w).trans (isFallbackWord_iff w)

/-- Settles O5: RETI's neighbours stand in R60's list. -/
theorem retiMatchesTheWholeWord : Obligations.RetiMatchesTheWholeWord :=
  fun w => ⟨classify_reti_iff w, fun hlow hhigh =>
    (classify_nop_iff w).mpr ((isFallbackWord_iff w).mpr (.inr (.inl ⟨hlow, hhigh⟩)))⟩

/-- Settles O9, one clause for each shape of the fetch. -/
theorem oneStepInOrder : Obligations.OneStepInOrder := by
  intro s
  refine ⟨fun hodd => ?_, fun heven k hk => ?_, fun heven w hl hvec => ?_, fun heven w x hl hbelow hx => ⟨?_, ?_⟩⟩
  · exact step_of_error (fetch_odd hodd)
  · exact step_of_error (fetch_unreadable heven hk)
  · have hv : inVectorRegion s.pc = true := decide_eq_true hvec
    exact step_of_vector (fetch_vector (fetchOpcode_of_loadWord heven hl) hv)
  · exact step_of_instr (fetch_of_words heven hbelow hl hx)
  · exact subtype_decodeWords w x

/-- Settles O10: the fetch ends with the failure of its second load. -/
theorem extensionFailureIsFatal : Obligations.ExtensionFailureIsFatal := by
  intro s w k heven hbelow hl hn hx
  have hfetch : fetch s = .error (endFatal k s) := by
    simp [fetch, fetchOpcode_of_loadWord heven hl, (inVectorRegion_iff s.pc).mpr hbelow,
      fetchExtension_error heven hn hx]
  exact step_of_error hfetch

/-- Settles O6, by running the decoder on each word. -/
theorem wordsOfEachFamily : Obligations.WordsOfEachFamily := by
  unfold Obligations.WordsOfEachFamily
  decide

/-- Settles O7: the offset's number, read as a signed one. -/
theorem jumpOffsetRange : Obligations.JumpOffsetRange := by
  intro f
  rw [BitVec.toInt_eq_toNat_cond, toNat_jumpOffset]
  split_ifs <;> omega

/-- Settles O8: the bytes of the two loaded words decode to the instruction that the fetch gives. -/
theorem stepRunsDecodedInstruction : Obligations.StepRunsDecodedInstruction := by
  intro s w x i heven hbelow hl hx hdecode
  have hwords := decode_instrBytes w x []
  rw [List.append_nil, instrBytes, hdecode] at hwords
  cases hwords
  exact step_of_instr (fetch_of_words heven hbelow hl hx)

end Sys2Proof.Proofs
end

section
/-! SUPPORT. The operand load by what its first load finds (40_single_operand.md R75), and the operand phase of a memory
operand by what its load gives (R72 to R74). -/

namespace Sys2Proof.Machine

open Sys2Proof.Safety

/-! ### The operand load by its first load -/

/-- A repair at an odd address is refused. -/
theorem repairLoad_odd {s : State} {a : Word} (hodd : isOdd a = true) : repairLoad s a = .error (endMisaligned s) := by
  simp [repairLoad, memWriteWord, hodd]

/-- A repair out of range is fatal. -/
theorem repairLoad_outOfRange {s : State} {a : Word} (heven : isOdd a = false) (hout : inRangeWord s.cfg a = false) :
    repairLoad s a = .error (endFatal .outOfRange s) := by
  simp [repairLoad, memWriteWord, heven, storeWord_outOfRange sentinel hout]

/-- An operand load at an odd address is refused. -/
theorem operandLoad_odd {s : State} {ea : Word} (om : Bool) (hodd : isOdd ea = true) :
    operandLoad s ea om = .error (endMisaligned s) := by
  simp [operandLoad, hodd]

/-- A first load that succeeds gives the operand, and nothing is stored. -/
theorem operandLoad_of_loadWord {s : State} {ea v : Word} (om : Bool) (heven : isOdd ea = false)
    (hl : loadWord s ea = .ok v) : operandLoad s ea om = .ok { value := v, address := ea, state := s } := by
  simp [operandLoad, heven, hl]

/-- A first load that fails is repaired, at the address that its failure gives. -/
theorem operandLoad_of_repairAddress {s : State} {ea a : Word} {om : Bool} {k : FailKind} (heven : isOdd ea = false)
    (hl : loadWord s ea = .error k) (ha : repairAddress s.cfg ea om k = some a) :
    operandLoad s ea om = repairLoad s a := by
  simp [operandLoad, heven, hl, ha]

/-- An operand load out of range whose address has MEM_BASE in it is fatal. -/
theorem operandLoad_kept_outOfRange {s : State} {ea : Word} (heven : isOdd ea = false)
    (hout : inRangeWord s.cfg ea = false) : operandLoad s ea false = .error (endFatal .outOfRange s) := by
  rw [operandLoad_of_repairAddress heven (loadWord_outOfRange hout) rfl, repairLoad_outOfRange heven hout]

/-- An operand load out of range whose address lacks MEM_BASE is repaired with MEM_BASE added. -/
theorem operandLoad_omitted_outOfRange {s : State} {ea : Word} (heven : isOdd ea = false)
    (hout : inRangeWord s.cfg ea = false) : operandLoad s ea true = repairLoad s (ea + s.cfg.memBase) :=
  operandLoad_of_repairAddress heven (loadWord_outOfRange hout) rfl

/-- A word is out of range where the load says so. -/
theorem inRangeWord_of_loadWord_outOfRange {s : State} {a : Word} (hl : loadWord s a = .error .outOfRange) :
    inRangeWord s.cfg a = false := by
  rcases loadWord_error hl with ⟨-, hout⟩ | ⟨hk, -⟩
  · exact hout
  · cases hk

/-- A word is in range where the load finds it unwritten. -/
theorem inRangeWord_of_loadWord_uninitialized {s : State} {a : Word} (hl : loadWord s a = .error .uninitialized) :
    inRangeWord s.cfg a = true := by
  rcases loadWord_error hl with ⟨hk, -⟩ | ⟨-, hin⟩
  · cases hk
  · exact hin

/-- MEM_BASE, which is even, added to an even address gives an even address. -/
theorem isOdd_add_memBase {c : Config} {a : Word} (hc : c.wf) (heven : isOdd a = false) :
    isOdd (a + c.memBase) = false := by
  obtain ⟨hbase, -, -⟩ := hc
  simp [isOdd, BitVec.toNat_add] at *
  omega

/-- An operand load at an even address that is not ready is fatal: the address is out of range, and so is the address
with MEM_BASE where the mode omitted it. -/
theorem operandLoad_unready {s : State} {ea : Word} {om : Bool} (hc : s.cfg.wf) (heven : isOdd ea = false)
    (hunready : ¬ LoadReady s ea om) : operandLoad s ea om = .error (endFatal .outOfRange s) := by
  have hout : inRangeWord s.cfg ea = false := Bool.eq_false_iff.mpr fun hin => hunready ⟨heven, .inl hin⟩
  cases om with
  | false => exact operandLoad_kept_outOfRange heven hout
  | true =>
    have hmoved := isOdd_add_memBase hc heven
    have hmovedOut : inRangeWord s.cfg (ea + s.cfg.memBase) = false :=
      Bool.eq_false_iff.mpr fun hin => hunready ⟨heven, .inr ⟨rfl, hmoved, hin⟩⟩
    rw [operandLoad_omitted_outOfRange heven hout, repairLoad_outOfRange hmoved hmovedOut]

/-! ### The operand phase by its load -/

/-- A stop of the operand load is the stop of the operand phase, in every memory mode. -/
theorem operandPhase_of_operandLoad_error {k : SingleOp} {s : State} {o : Operand} {ea : Word} {om : Bool} {e : Stop}
    (ha : effectiveAddress s o = some (ea, om)) (hl : operandLoad s ea om = .error e) :
    operandPhase k s o = .error e := by
  cases o with
  | register n => cases ha
  | indexed n x =>
    have hpair : indexedAddress s.cfg (s.reg n) x = (ea, om) := Option.some.inj ha
    simp [operandPhase, loadIntoRegister, hpair, hl]
  | indirect n =>
    cases ha
    simp [operandPhase, loadIntoRegister, hl]
  | autoincrement n =>
    cases ha
    simp [operandPhase, loadIntoRegister, hl]

/-- A stop of the operand load ends the step, for every Mut. -/
theorem resolve_of_operandLoad_error (M : Mut) (k : SingleOp) (bw : Bool) {s : State} {o : Operand} {ea : Word}
    {om : Bool} {e : Stop} (ha : effectiveAddress s o = some (ea, om)) (hl : operandLoad s ea om = .error e) :
    resolve M k bw o s = e.outcome :=
  resolve_of_operand_error (operandPhase_of_operandLoad_error ha hl)

/-- The effective address of indexed mode: MEM_BASE is left out of a sum at or above the vector boundary. -/
theorem effectiveAddress_indexed (s : State) (n : Reg) (x : Word) :
    effectiveAddress s (.indexed n x) =
      some (if decide (0xFFC0 ≤ (s.cfg.memBase + s.reg n + x).toNat) then s.reg n + x else s.cfg.memBase + s.reg n + x,
        decide (0xFFC0 ≤ (s.cfg.memBase + s.reg n + x).toNat)) := by
  have hv : inVectorRegion (s.cfg.memBase + s.reg n + x) = decide (0xFFC0 ≤ (s.cfg.memBase + s.reg n + x).toNat) := rfl
  rw [← hv, effectiveAddress, indexedAddress]
  cases inVectorRegion (s.cfg.memBase + s.reg n + x) <;> rfl

/-- Indexed mode: the operand is in its register. -/
theorem operandPhase_indexed_of_operandLoad {k : SingleOp} {s : State} {n : Reg} {x ea : Word} {om : Bool} {l : Loaded}
    (ha : effectiveAddress s (.indexed n x) = some (ea, om)) (hl : operandLoad s ea om = .ok l) :
    operandPhase k s (.indexed n x) = .ok (l.state.setReg n l.value) := by
  have hpair : indexedAddress s.cfg (s.reg n) x = (ea, om) := Option.some.inj ha
  simp [operandPhase, loadIntoRegister, hpair, hl]

/-- Indirect-register mode: the operand is in its register, and the dump is emitted. -/
theorem operandPhase_indirect_of_operandLoad {k : SingleOp} {s : State} {n : Reg} {l : Loaded}
    (hl : operandLoad s (s.reg n) true = .ok l) :
    operandPhase k s (.indirect n) = .ok (dumpIndirect k l.address (l.state.setReg n l.value)) := by
  simp [operandPhase, loadIntoRegister, hl]

/-- Indirect-autoincrement mode: the operand is in its register. -/
theorem operandPhase_autoincrement_of_operandLoad {k : SingleOp} {s : State} {n : Reg} {l : Loaded}
    (hl : operandLoad s (s.reg n) true = .ok l) :
    operandPhase k s (.autoincrement n) = .ok (l.state.setReg n l.value) := by
  simp [operandPhase, loadIntoRegister, hl]

/-! ### The increment of each mode -/

@[simp] theorem incremented_register (bw : Bool) (n : Reg) (s : State) : incremented bw (.register n) s = s :=
  (incrementPhase_eq_incremented bw s (.register n)).symm
@[simp] theorem incremented_indexed (bw : Bool) (n : Reg) (x : Word) (s : State) :
    incremented bw (.indexed n x) s = s :=
  (incrementPhase_eq_incremented bw s (.indexed n x)).symm
@[simp] theorem incremented_indirect (bw : Bool) (n : Reg) (s : State) : incremented bw (.indirect n) s = s :=
  (incrementPhase_eq_incremented bw s (.indirect n)).symm

end Sys2Proof.Machine
end

section
/-! The statements of 40_single_operand.md on the operand load and the four modes (R70 to R78). -/

namespace Sys2Proof.Proofs

open Sys2Proof.Machine Sys2Proof.Safety

/-- Settles O20, one clause for each outcome of the first load and each address of the repair. -/
theorem operandLoadRepairsOnce : Obligations.OperandLoadRepairsOnce := by
  intro s ea omitted moved
  refine ⟨operandLoad_odd omitted, fun heven => ⟨fun v => operandLoad_of_loadWord omitted heven, fun hl => ?_,
    fun hl => ?_⟩⟩
  · rw [operandLoad_of_repairAddress heven hl rfl]
    exact repairLoad_inRange heven (inRangeWord_of_loadWord_uninitialized hl)
  · have hout := inRangeWord_of_loadWord_outOfRange hl
    refine ⟨fun hom => ?_, fun hom hodd => ?_, fun hom hmoved hmovedOut => ?_, fun hom hmoved hmovedIn => ?_⟩ <;>
      subst hom
    · exact operandLoad_kept_outOfRange heven hout
    · exact (operandLoad_omitted_outOfRange heven hout).trans (repairLoad_odd hodd)
    · exact (operandLoad_omitted_outOfRange heven hout).trans (repairLoad_outOfRange hmoved hmovedOut)
    · exact (operandLoad_omitted_outOfRange heven hout).trans (repairLoad_inRange hmoved hmovedIn)

/-- Settles O22, by the operand phase of a ready operand. -/
theorem readyOperandIsLoaded : Obligations.ReadyOperandIsLoaded :=
  fun _ k _ hready => operandPhase_of_ready k hready

/-- Settles O23: the operand load stops, and the resolver with it. -/
theorem unreadyOperandStops : Obligations.UnreadyOperandStops := by
  intro M k bw o s ea omitted hc ha
  refine ⟨fun hodd => ?_, fun heven hunready => ?_⟩
  · exact resolve_of_operandLoad_error M k bw ha (operandLoad_odd omitted hodd)
  · exact resolve_of_operandLoad_error M k bw ha (operandLoad_unready hc heven hunready)

/-- Settles O24: the operand phase of register mode does nothing, and there is no increment. -/
theorem registerMode : Obligations.RegisterMode := by
  intro M k bw n s
  have hp : operandPhase k s (.register n) = .ok s := rfl
  refine ⟨fun e he => resolve_eq_outcome hp he, fun t ht => ?_⟩
  simpa [nextAddress] using resolve_eq_next hp ht

/-- Settles O25, the address being the effective address of indexed mode. -/
theorem indexedMode : Obligations.IndexedMode := by
  intro M k bw n x s sum dropped load
  have ha := effectiveAddress_indexed s n x
  refine ⟨fun e he => resolve_of_operandLoad_error M k bw ha he, fun l hl => ?_⟩
  have hp := operandPhase_indexed_of_operandLoad (k := k) ha hl
  refine ⟨fun e he => resolve_eq_outcome hp he, fun t ht => ?_⟩
  simpa [nextAddress] using resolve_eq_next hp ht

/-- Settles O26: the operand phase of indirect mode ends with the dump. -/
theorem indirectMode : Obligations.IndirectMode := by
  intro M k bw n s
  refine ⟨fun e he => resolve_of_operandLoad_error M k bw rfl he, fun l hl => ?_⟩
  intro p
  have hp : operandPhase k s (.indirect n) = .ok p := operandPhase_indirect_of_operandLoad hl
  refine ⟨fun e he => resolve_eq_outcome hp he, fun t ht => ?_⟩
  simpa [nextAddress] using resolve_eq_next hp ht

/-- Settles O27: the increment is added to the register as the mutator left it. -/
theorem autoincrementMode : Obligations.AutoincrementMode := by
  intro M k bw n s
  refine ⟨fun e he => resolve_of_operandLoad_error M k bw rfl he, fun l hl => ?_⟩
  have hp := operandPhase_autoincrement_of_operandLoad (k := k) hl
  exact ⟨fun e he => resolve_eq_outcome hp he, fun t ht => resolve_eq_next hp ht⟩

/-- Settles O28: a resolver that goes on has `lin` for its next address, and for CALL the x[0] that the increment
left. -/
theorem callReturnsRegisterZero : Obligations.CallReturnsRegisterZero := by
  intro M k bw o s t h
  refine ⟨fun hk => ?_, fun hk => ?_⟩
  · obtain ⟨p, u, -, -, rfl⟩ := resolve_next h
    simp [hk]
  · rw [resolve_next_pc h hk, linearSuccessor_eq_nextAddress]

end Sys2Proof.Proofs
end

section
/-! SUPPORT. A single-operand instruction on an operand that can be loaded: with the session's Mut where it goes on, and
with the reference mutators (40_single_operand.md R80 to R85; 43_reference_execution_unit.md R140 to R146). -/

namespace Sys2Proof.Machine

open Sys2Proof.Safety

/-- RETI is decoded from the words of its row. -/
theorem decodeWords_reti_iff (w x : Word) : decodeWords w x = .reti ↔ classify w = .reti := by
  refine ⟨fun h => ?_, fun h => by simp [decodeWords, h]⟩
  rw [← subtype_decodeWords w x, h]
  rfl

/-! ### The session's Mut on a ready operand -/

/-- The loaded operand has the step's parameters and flags. -/
theorem operandState_frame {s : State} {o : Operand} (hready : OperandReady s o) :
    (operandState s o).cfg = s.cfg ∧ (operandState s o).flags = s.flags := by
  have hp : operandPhase .rrc s o = .ok (operandState s o) := by simp [operandPhase_of_ready .rrc hready]
  obtain ⟨hcfg, hflags, -⟩ := operandPhase_ok hp
  exact ⟨hcfg, hflags⟩

@[simp] theorem withDump_cfg (s : State) (o : Operand) (t : State) : (withDump s o t).cfg = t.cfg := by
  cases o <;> rfl

/-- A PUSH or CALL that goes on ran the session's Mut on the loaded operand with the dump emitted, then the increment
and the result. -/
theorem exec_stack_next {k : SingleOp} (hk : k = .push ∨ k = .call) {s t : State} {bw : Bool} {o : Operand}
    (hready : OperandReady s o) (h : exec (.ofSingle bw o k) s = .next t) :
    ∃ u, mutOf s.cfg k o.reg (singleWord k bw o) (linearSuccessor s o) (withDump s o (operandState s o)) = .ok u ∧
      t = (incremented bw o u).setPc (if k = .call then (incremented bw o u).reg 0 else nextAddress s o) := by
  rw [exec_ofSingle] at h
  obtain ⟨p, u, hp, hu, ht⟩ := resolve_next h
  rw [operandPhase_of_ready k hready, if_pos hk] at hp
  cases hp
  rw [incrementPhase_eq_incremented, linearSuccessor_eq_nextAddress] at ht
  exact ⟨u, hu, ht⟩

/-! ### The reference mutators on a ready operand -/

/-- A reference mutator that goes on on the loaded operand: the step does, with the increment and the result. -/
theorem exec_reference {k : SingleOp} {s p u : State} {bw : Bool} {o : Operand} (href : s.cfg.mutators = .reference)
    (hp : operandPhase k s o = .ok p) (hu : refMut k o.reg (singleWord k bw o) (nextAddress s o) p = .ok u) :
    exec (.ofSingle bw o k) s = .next ((incremented bw o u).setPc
      (if k = .call then (incremented bw o u).reg 0 else nextAddress s o)) := by
  rw [exec_ofSingle, mutOf_reference href]
  exact resolve_eq_next hp hu

/-- The increment is added to the result that a mutator left in the operand's register. -/
theorem incremented_setReg_setFlags (bw : Bool) (o : Operand) (s : State) (r : Word) (f : Flags) :
    incremented bw o ((s.setReg o.reg r).setFlags f) = (s.setReg o.reg (r + increment bw o)).setFlags f := by
  rw [incremented, State.reg_setFlags, State.reg_setReg_same]
  exact congrArg (fun t => t.setFlags f) (State.setReg_setReg s o.reg r (r + increment bw o))

/-- RRC, SWPB, RRA and SXT on a ready operand: the register gets the reference result `r` with the increment, and the
flags are the reference ones. -/
theorem exec_reference_rotate {k : SingleOp} (hpush : k ≠ .push) (hcall : k ≠ .call) {s : State} {bw : Bool}
    {o : Operand} {r : Word} {f : Flags} (href : s.cfg.mutators = .reference) (hready : OperandReady s o)
    (hu : refMut k o.reg (singleWord k bw o) (nextAddress s o) (operandState s o) =
      .ok (((operandState s o).setReg o.reg r).setFlags f)) :
    exec (.ofSingle bw o k) s =
      .next ((((operandState s o).setReg o.reg (r + increment bw o)).setFlags f).setPc (nextAddress s o)) := by
  have hp : operandPhase k s o = .ok (operandState s o) := by simp [operandPhase_of_ready k hready, hpush, hcall]
  rw [exec_reference href hp hu, if_neg hcall, incremented_setReg_setFlags]

/-- PUSH and CALL on a ready operand, where the reference mutator goes on at the state with the dump emitted. -/
theorem exec_reference_stack {k : SingleOp} (hk : k = .push ∨ k = .call) {s u : State} {bw : Bool} {o : Operand}
    (href : s.cfg.mutators = .reference) (hready : OperandReady s o)
    (hu : refMut k o.reg (singleWord k bw o) (nextAddress s o) (withDump s o (operandState s o)) = .ok u) :
    exec (.ofSingle bw o k) s = .next ((incremented bw o u).setPc
      (if k = .call then (incremented bw o u).reg 0 else nextAddress s o)) :=
  exec_reference href (by rw [operandPhase_of_ready k hready, if_pos hk]) hu

/-! ### Pushes that go on -/

/-- A push of a word to an even slot in range. -/
theorem pushOnStack_word {s : State} {sp : Word} (v : Word) (heven : isOdd sp = false)
    (hin : inRangeWord s.cfg sp = true) : pushOnStack false sp v s = .ok ((s.setReg 1 sp).setWord sp v) := by
  have hstore : storeWord (s.setReg 1 sp) sp v = .ok ((s.setReg 1 sp).setWord sp v) := storeWord_inRange v hin
  simp [pushOnStack, memWriteWord, heven, hstore]

/-- A push of a byte to a slot in range. -/
theorem pushOnStack_byte {s : State} {sp : Word} (v : Word) (hin : inRangeByte s.cfg sp.toNat = true) :
    pushOnStack true sp v s = .ok ((s.setReg 1 sp).setByte sp.toNat (loByte v)) := by
  simp [pushOnStack, memWriteByte, storeByte, hin]

/-- The push of a return address to an even slot in range, and the target in x[0]. -/
theorem callOnStack_word {s : State} {sp : Word} (ret v : Word) (heven : isOdd sp = false)
    (hin : inRangeWord s.cfg sp = true) :
    callOnStack sp ret v s = .ok (((s.setReg 1 sp).setWord sp ret).setReg 0 v) := by
  simp [callOnStack, pushOnStack_word ret heven hin]

/-! ### The results and flags of the reference mutators as numbers -/

/-- Half a word as a signed number, rounded down. -/
theorem toInt_rraWord (v : Word) : (rraWord v).toInt = v.toInt / 2 := by
  have hv := v.isLt
  have hr := toNat_rraWord v
  rw [BitVec.toInt_eq_toNat_cond, BitVec.toInt_eq_toNat_cond, hr]
  split_ifs <;> omega

/-- The low byte as a signed number. -/
theorem toInt_signExtendByte (v : Word) : (signExtendByte v).toInt =
    if v.toNat % 256 < 128 then ((v.toNat % 256 : Nat) : Int) else ((v.toNat % 256 : Nat) : Int) - 256 := by
  rw [signExtendByte, BitVec.toInt_signExtend_of_le (by decide), BitVec.toInt_eq_toNat_cond, toNat_loByte]
  split_ifs <;> omega

/-- The flags of SXT, by the low byte: the result is zero where the byte is, and negative where its top bit is set. -/
theorem signExtendFlags_signExtendByte (v : Word) : signExtendFlags (signExtendByte v) =
    { z := decide (v.toNat % 256 = 0), c := decide (v.toNat % 256 ≠ 0), n := decide (128 ≤ v.toNat % 256),
      v := false } := by
  have hint := toInt_signExtendByte v
  have hzero : (signExtendByte v == 0#16) = decide (v.toNat % 256 = 0) := by
    rw [Bool.eq_iff_iff, beq_iff_eq, decide_eq_true_iff, ← BitVec.toInt_inj, hint, BitVec.toInt_zero]
    split_ifs <;> omega
  have hneg : (signExtendByte v).msb = decide (128 ≤ v.toNat % 256) := by
    rw [BitVec.msb_eq_toInt, hint, decide_eq_decide]
    split_ifs <;> omega
  rw [signExtendFlags, hzero, hneg, decide_not]

/-- The flags of a word rotate, as numbers. -/
theorem rotateFlags_word (v r : Word) : rotateFlags v r =
    { z := decide (r.toNat = 0), c := decide (v.toNat % 2 = 1), n := decide (0x8000 ≤ r.toNat), v := false } :=
  rotateFlags_eq (w := 15) v r

/-- The flags of a byte rotate, by the word that holds the operand and the word that the register gets. -/
theorem rotateFlags_byte (v : Word) (r : Byte) : rotateFlags (loByte v) r =
    { z := decide ((zeroExtendByte r).toNat = 0), c := decide (v.toNat % 2 = 1),
      n := decide (0x80 ≤ (zeroExtendByte r).toNat), v := false } := by
  have hmod : v.toNat % 256 % 2 = v.toNat % 2 := by omega
  rw [rotateFlags_eq (w := 7), toNat_loByte, hmod, toNat_zeroExtendByte]
  rfl

end Sys2Proof.Machine
end

section
/-! The statements of 40_single_operand.md on the six instructions and RETI (R80 to R86). -/

namespace Sys2Proof.Proofs

open Sys2Proof.Machine Sys2Proof.Safety

/-- Settles O15: RETI's row has one word, and its handler stops at once. -/
theorem retiIsAPlaceholder : Obligations.RetiIsAPlaceholder :=
  fun _ w x => ⟨(decodeWords_reti_iff w x).trans (classify_reti_iff w), rfl⟩

/-- Settles O31, by the clause of the contract on PUSH. -/
theorem pushUnderEveryMut : Obligations.PushUnderEveryMut := by
  intro s t bw o hready h p
  obtain ⟨u, hu, ht⟩ := exec_stack_next (k := .push) (.inl rfl) hready h
  have hcontract := everyMutOfASessionMeetsContract s.cfg .push o.reg (singleWord .push bw o) (linearSuccessor s o) p
  rw [hu] at hcontract
  obtain ⟨-, -, -, -, hpush, -⟩ := hcontract
  obtain ⟨hmoved, hstack⟩ := hpush rfl
  exact ⟨u, hmoved, hstack, ht⟩

/-- Settles O32, by the clause of the contract on CALL. -/
theorem callUnderEveryMut : Obligations.CallUnderEveryMut := by
  intro s t bw o hready h p
  obtain ⟨u, hu, ht⟩ := exec_stack_next (k := .call) (.inr rfl) hready h
  have hcontract := everyMutOfASessionMeetsContract s.cfg .call o.reg (singleWord .call bw o) (linearSuccessor s o) p
  rw [hu] at hcontract
  obtain ⟨-, -, -, -, -, hcall⟩ := hcontract
  obtain ⟨hmoved, ⟨ret, hret⟩, htarget⟩ := hcall rfl
  exact ⟨u, ret, hmoved, hret, htarget, ht⟩

/-- Settles O33, by the two widths of the reference mutator. -/
theorem rrcResult : Obligations.RrcResult := by
  intro s bw o href hready p v
  have hflags : p.flags = s.flags := (operandState_frame hready).2
  cases bw with
  | false =>
    refine ⟨rrcWord s.flags.c (p.reg o.reg), fun _ => toNat_rrcWord _ _, nofun, ?_⟩
    have hmut := mutRrc_word (byteFlag_singleWord .rrc false o) o.reg (nextAddress s o) p
    rw [hflags, rotateFlags_word] at hmut
    exact exec_reference_rotate (k := .rrc) nofun nofun href hready hmut
  | true =>
    refine ⟨zeroExtendByte (rrcByte s.flags.c (loByte (p.reg o.reg))), nofun, fun _ => ?_, ?_⟩
    · rw [toNat_zeroExtendByte, toNat_rrcByte, toNat_loByte]
    · have hmut := mutRrc_byte (byteFlag_singleWord .rrc true o) o.reg (nextAddress s o) p
      rw [hflags, rotateFlags_byte] at hmut
      exact exec_reference_rotate (k := .rrc) nofun nofun href hready hmut

/-- Settles O34: the reference mutator writes the register only. -/
theorem swpbResult : Obligations.SwpbResult := by
  intro s bw o href hready p v
  refine ⟨swapBytes (p.reg o.reg), toNat_swapBytes _, ?_⟩
  exact exec_reference_rotate (k := .swpb) (f := p.flags) nofun nofun href hready rfl

/-- Settles O35, by the two widths of the reference mutator. -/
theorem rraResult : Obligations.RraResult := by
  intro s bw o href hready p v
  cases bw with
  | false =>
    refine ⟨rraWord v, fun _ => toInt_rraWord v, nofun, ?_⟩
    have hmut := mutRra_word (byteFlag_singleWord .rra false o) o.reg (nextAddress s o) p
    rw [rotateFlags_word] at hmut
    exact exec_reference_rotate (k := .rra) nofun nofun href hready hmut
  | true =>
    refine ⟨zeroExtendByte (rraByte (loByte v)), nofun, fun _ => ?_, ?_⟩
    · rw [toNat_zeroExtendByte, toNat_rraByte, toNat_loByte]
    · have hmut := mutRra_byte (byteFlag_singleWord .rra true o) o.reg (nextAddress s o) p
      rw [rotateFlags_byte] at hmut
      exact exec_reference_rotate (k := .rra) nofun nofun href hready hmut

/-- Settles O36: the sign and the zero of the result are those of the low byte. -/
theorem sxtResult : Obligations.SxtResult := by
  intro s bw o href hready p v
  refine ⟨signExtendByte (p.reg o.reg), toInt_signExtendByte _, ?_⟩
  have hmut : refMut .sxt o.reg (singleWord .sxt bw o) (nextAddress s o) p =
      .ok ((p.setReg o.reg (signExtendByte (p.reg o.reg))).setFlags (signExtendFlags (signExtendByte (p.reg o.reg)))) :=
    rfl
  rw [signExtendFlags_signExtendByte] at hmut
  exact exec_reference_rotate (k := .sxt) nofun nofun href hready hmut

/-- Settles O37: the push of the operand, as a word or as its low byte, at the slot below x[1]. -/
theorem pushResult : Obligations.PushResult := by
  intro s bw o href hready p slot
  have hcfg : p.cfg = s.cfg := (withDump_cfg s o _).trans (operandState_frame hready).1
  have hmut : refMut .push o.reg (singleWord .push bw o) (nextAddress s o) p = pushOnStack bw slot (p.reg o.reg) p :=
    congrArg (fun b => pushOnStack b slot (p.reg o.reg) p) (byteFlag_singleWord .push bw o)
  refine ⟨fun hword heven hin => ?_, fun hbyte hin => ⟨loByte (p.reg o.reg), toNat_loByte _, ?_⟩⟩
  · rw [hword, pushOnStack_word _ heven (hcfg ▸ hin)] at hmut
    exact hword ▸ exec_reference_stack (k := .push) (.inl rfl) href hready hmut
  · rw [hbyte, pushOnStack_byte _ (hcfg ▸ hin)] at hmut
    exact hbyte ▸ exec_reference_stack (k := .push) (.inl rfl) href hready hmut

/-- Settles O38: the push of `lin` at the slot below x[1], and the target in x[0]. -/
theorem callResult : Obligations.CallResult := by
  intro s bw o href hready p slot u heven hin
  have hcfg : p.cfg = s.cfg := (withDump_cfg s o _).trans (operandState_frame hready).1
  have hmut : refMut .call o.reg (singleWord .call bw o) (nextAddress s o) p =
      .ok (((p.setReg 1 slot).setWord slot (nextAddress s o)).setReg 0 (p.reg o.reg)) :=
    callOnStack_word (nextAddress s o) (p.reg o.reg) heven (hcfg ▸ hin)
  exact exec_reference_stack (k := .call) (.inr rfl) href hready hmut

end Sys2Proof.Proofs
end

section
/-! SUPPORT. What a resolver run that goes on leaves unchanged: registers, bytes and trace, by its operand phase and its
mutator (40_single_operand.md R75, R78, R79; 43_reference_execution_unit.md R145, R146); and the states that its stops
leave. -/

namespace Sys2Proof.Machine

open Sys2Proof.Safety

/-! ### The operand phase -/

/-- A byte that the repair does not store is as it was. -/
theorem operandPhase_byte {k : SingleOp} {s p : State} {o : Operand} (h : operandPhase k s o = .ok p) {a : Nat}
    (ha : ∀ site, repairSite s o = some site → ¬ InWord a site) : p.byte a = s.byte a := by
  obtain ⟨-, -, -, -, hmem, -⟩ := operandPhase_ok h
  rcases hmem with ⟨-, hmem⟩ | ⟨site, hsite, -, hmem⟩
  · rw [State.byte, hmem, State.byte]
  · have hout := ha site hsite
    calc p.byte a = (s.setWord site sentinel).byte a := by rw [State.byte, hmem, State.byte]
      _ = s.byte a := State.byte_setWord_ne s sentinel (fun hlow => hout (.inl hlow)) fun hhigh => hout (.inr hhigh)

/-- The operand load emits nothing. -/
theorem loadIntoRegister_trace {s t : State} {n : Reg} {ea a : Word} {om : Bool}
    (h : loadIntoRegister s n ea om = .ok (a, t)) : t.trace = s.trace := by
  rcases loadIntoRegister_cases s n ea om with ⟨w, -, h'⟩ | ⟨k, a, -, -, -, h'⟩ | h' | h' <;>
    cases h.symm.trans h' <;> rfl

/-- The dump is emitted for PUSH and CALL only. -/
theorem dumpIndirect_trace (k : SingleOp) (a : Word) (s : State) :
    (dumpIndirect k a s).trace = s.trace ∨
      ((k = .push ∨ k = .call) ∧ (dumpIndirect k a s).trace = s.trace ++ [.dump a 32]) := by
  rw [dumpIndirect]
  split
  · next hk => exact .inr ⟨hk, rfl⟩
  · exact .inl rfl

/-- The operand phase emits nothing but one dump, for PUSH and CALL in indirect mode. -/
theorem operandPhase_trace {k : SingleOp} {s p : State} {o : Operand} (h : operandPhase k s o = .ok p) :
    p.trace = s.trace ∨
      ∃ n a, o = .indirect n ∧ (k = .push ∨ k = .call) ∧ p.trace = s.trace ++ [.dump a 32] := by
  cases o with
  | register n =>
    cases h
    exact .inl rfl
  | indexed n x =>
    rw [operandPhase] at h
    split at h
    · cases h
    · next a t hl =>
      cases h
      exact .inl (loadIntoRegister_trace hl)
  | indirect n =>
    rw [operandPhase] at h
    split at h
    · cases h
    · next a t hl =>
      cases h
      rw [← loadIntoRegister_trace hl]
      exact (dumpIndirect_trace k a t).imp_right fun ⟨hk, htrace⟩ => ⟨n, a, rfl, hk, htrace⟩
  | autoincrement n =>
    rw [operandPhase] at h
    split at h
    · cases h
    · next a t hl =>
      cases h
      exact .inl (loadIntoRegister_trace hl)

/-- An operand phase that stops leaves the state as it was. -/
theorem operandPhase_error {k : SingleOp} {s : State} {o : Operand} {e : Stop} (h : operandPhase k s o = .error e) :
    leftState e.outcome = some s := by
  rcases operandPhase_cases k s o with ⟨p, hp, -⟩ | h' | h'
  · cases h.symm.trans hp
  · cases h.symm.trans h'
    rfl
  · cases h.symm.trans h'
    rfl

/-! ### The reference mutators -/

/-- RRC, SWPB, RRA and SXT write no register but the operand's, and store nothing. -/
theorem refMut_rotate_frame {k : SingleOp} (hpush : k ≠ .push) (hcall : k ≠ .call) {n : Reg} {w lin : Word}
    {s t : State} (h : refMut k n w lin s = .ok t) :
    (∀ m, m ≠ n → t.reg m = s.reg m) ∧ ∀ a, t.byte a = s.byte a := by
  obtain ⟨r, f, h', -⟩ := refMut_register_only hpush hcall n w lin s
  cases h.symm.trans h'
  exact ⟨fun m hm => State.reg_setReg_ne s r hm, fun _ => rfl⟩

/-- The reference PUSH writes x[1] and the stack slot, two bytes for a word and one for a byte. -/
theorem refMut_push_frame {n : Reg} {w lin : Word} {s t : State} (h : refMut .push n w lin s = .ok t) :
    (∀ m, m ≠ 1 → t.reg m = s.reg m) ∧
      ∀ a, a ≠ (stackSlot s).toNat → (byteFlag w = false → a ≠ (stackSlot s).toNat + 1) → t.byte a = s.byte a := by
  rcases mutPush_cases n w lin s with ⟨-, -, h'⟩ | h' | ⟨hword, -, -, h'⟩ | ⟨-, -, h'⟩ <;> cases h.symm.trans h'
  · exact ⟨fun m hm => State.reg_setReg_ne s _ hm, fun a hlow hhigh => State.byte_setWord_ne _ _ hlow (hhigh hword)⟩
  · exact ⟨fun m hm => State.reg_setReg_ne s _ hm, fun a hlow _ => State.byte_setByte_ne _ _ hlow⟩

/-- The reference CALL writes x[1], x[0] and the two bytes of the stack slot. -/
theorem refMut_call_frame {n : Reg} {w lin : Word} {s t : State} (h : refMut .call n w lin s = .ok t) :
    (∀ m, m ≠ 1 → m ≠ 0 → t.reg m = s.reg m) ∧ ∀ a, ¬ InWord a (stackSlot s) → t.byte a = s.byte a := by
  rcases mutCall_cases n w lin s with ⟨-, h'⟩ | ⟨-, -, h'⟩ | ⟨-, -, h'⟩ <;> cases h.symm.trans h'
  refine ⟨fun m h1 h0 => ?_, fun a ha => ?_⟩
  · exact (State.reg_setReg_ne _ _ h0).trans (State.reg_setReg_ne s _ h1)
  · exact State.byte_setWord_ne _ _ (fun hlow => ha (.inl hlow)) fun hhigh => ha (.inr hhigh)

/-! ### The contract of a mutator -/

/-- A mutator that meets the contract and stops leaves a state with the invariant kept. -/
theorem mutContract_error {M : Mut} (hM : MutContract M) {k : SingleOp} {n : Reg} {w lin : Word} {s : State} {e : Stop}
    (h : M k n w lin s = .error e) : ∃ t, leftState e.outcome = some t ∧ (Inv s → Inv t) := by
  have hc := hM k n w lin s
  rw [h] at hc
  rcases hc with ⟨t, kind, rfl, hinv⟩ | ⟨t, rfl, hinv⟩
  · exact ⟨t, rfl, hinv⟩
  · exact ⟨t, rfl, hinv⟩

/-- A mutator that meets the contract and goes on emits nothing. -/
theorem mutContract_trace {M : Mut} (hM : MutContract M) {k : SingleOp} {n : Reg} {w lin : Word} {s t : State}
    (h : M k n w lin s = .ok t) : t.trace = s.trace := by
  have hc := hM k n w lin s
  rw [h] at hc
  obtain ⟨-, -, htrace, -⟩ := hc
  exact htrace

/-! ### The resolver -/

/-- A register that is not the operand's is as it was where the mutator leaves it. -/
theorem resolve_next_reg {M : Mut} {k : SingleOp} {bw : Bool} {o : Operand} {s t : State}
    (h : resolve M k bw o s = .next t) {m : Reg} (hm : m ≠ o.reg)
    (hM : ∀ w lin p u, M k o.reg w lin p = .ok u → u.reg m = p.reg m) : t.reg m = s.reg m := by
  obtain ⟨p, u, hp, hu, rfl⟩ := resolve_next h
  obtain ⟨-, -, -, hreg, -⟩ := operandPhase_ok hp
  rw [State.reg_setPc, incrementPhase_reg_ne bw u hm, hM _ _ _ _ hu, hreg m hm]

/-- A byte that no repair stores is as it was where the mutator, invoked in `p`, leaves it. -/
theorem resolve_next_byte {M : Mut} {k : SingleOp} {bw : Bool} {o : Operand} {s p t : State}
    (h : resolve M k bw o s = .next t) (hp : operandPhase k s o = .ok p) {a : Nat}
    (ha : ∀ site, repairSite s o = some site → ¬ InWord a site)
    (hM : ∀ lin u, M k o.reg (singleWord k bw o) lin p = .ok u → u.byte a = p.byte a) : t.byte a = s.byte a := by
  obtain ⟨q, u, hq, hu, rfl⟩ := resolve_next h
  cases hp.symm.trans hq
  rw [State.byte_setPc, incrementPhase_byte, hM _ _ hu, operandPhase_byte hp ha]

/-- The trace is as the operand phase left it, for every Mut that meets the contract. -/
theorem resolve_next_trace {M : Mut} (hM : MutContract M) {k : SingleOp} {bw : Bool} {o : Operand} {s t : State}
    (h : resolve M k bw o s = .next t) :
    t.trace = s.trace ∨ ∃ n a, o = .indirect n ∧ (k = .push ∨ k = .call) ∧ t.trace = s.trace ++ [.dump a 32] := by
  obtain ⟨p, u, hp, hu, rfl⟩ := resolve_next h
  rw [State.setPc_trace, incrementPhase_trace, mutContract_trace hM hu]
  exact operandPhase_trace hp

end Sys2Proof.Machine
end

section
/-! The statements of 40_single_operand.md on what the instructions leave unchanged, on the invariant and on the trace
(R70 to R79). -/

namespace Sys2Proof.Proofs

open Sys2Proof.Machine Sys2Proof.Safety

/-- Settles O42: the four mutators write the operand's register and the flags, and only a repair stores. -/
theorem rotateFrame : Obligations.RotateFrame := by
  intro s t bw o i href hi h
  obtain ⟨k, hpush, hcall, rfl⟩ : ∃ k, k ≠ .push ∧ k ≠ .call ∧ i = .ofSingle bw o k := by
    rcases hi with rfl | rfl | rfl | rfl
    exacts [⟨.rrc, nofun, nofun, rfl⟩, ⟨.swpb, nofun, nofun, rfl⟩, ⟨.rra, nofun, nofun, rfl⟩, ⟨.sxt, nofun, nofun, rfl⟩]
  rw [exec_ofSingle, mutOf_reference href] at h
  obtain ⟨p, -, hp, -, -⟩ := resolve_next h
  have hbyte : ∀ a, (∀ site, repairSite s o = some site → ¬ InWord a site) → t.byte a = s.byte a :=
    fun a ha => resolve_next_byte h hp ha fun _ _ hu => (refMut_rotate_frame hpush hcall hu).2 a
  refine ⟨fun m hm => ?_, (resolve_next_keeps refMut_meets_contract h).1, ?_, fun hswpb => ?_, fun hnone a => ?_,
    fun site hsite a ha => ?_⟩
  · exact resolve_next_reg h hm fun _ _ _ _ hu => (refMut_rotate_frame hpush hcall hu).1 m hm
  · rcases resolve_next_trace refMut_meets_contract h with htrace | ⟨-, -, -, rfl | rfl, -⟩
    · exact htrace
    · exact absurd rfl hpush
    · exact absurd rfl hcall
  · refine resolve_next_flags h fun _ _ _ _ _ => refMut_flags ?_
    rintro (rfl | rfl | rfl) <;> cases hswpb
  · exact hbyte a fun site hsite => by cases hnone.symm.trans hsite
  · refine hbyte a fun site' hsite' => ?_
    cases hsite.symm.trans hsite'
    exact ha

/-- Settles O43: the mutator writes x[1] and its stack slot. -/
theorem pushFrame : Obligations.PushFrame := by
  intro s t bw o href h
  replace h : resolve refMut .push bw o s = .next t := by
    rw [← mutOf_reference href]
    exact h
  refine ⟨fun m hm h1 => ?_, ?_, (resolve_next_keeps refMut_meets_contract h).1, fun p hp a hrepair hlow hhigh => ?_⟩
  · exact resolve_next_reg h hm fun _ _ _ _ hu => (refMut_push_frame hu).1 m h1
  · exact resolve_next_flags h fun _ _ _ _ _ => refMut_flags (by decide)
  · refine resolve_next_byte h hp hrepair fun _ _ hu => (refMut_push_frame hu).2 a hlow ?_
    rwa [byteFlag_singleWord]

/-- Settles O44: the mutator writes x[1], x[0] and its stack slot. -/
theorem callFrame : Obligations.CallFrame := by
  intro s t bw o href h
  replace h : resolve refMut .call bw o s = .next t := by
    rw [← mutOf_reference href]
    exact h
  refine ⟨fun m hm h1 h0 => ?_, ?_, (resolve_next_keeps refMut_meets_contract h).1, fun p hp a hrepair ha => ?_⟩
  · exact resolve_next_reg h hm fun _ _ _ _ hu => (refMut_call_frame hu).1 m h1 h0
  · exact resolve_next_flags h fun _ _ _ _ _ => refMut_flags (by decide)
  · exact resolve_next_byte h hp hrepair fun _ _ hu => (refMut_call_frame hu).2 a ha

/-- Settles O50: a stop of the operand phase leaves the state as it was, a stop of the mutator one that the contract
gives, and a run that goes on keeps the invariant. -/
theorem resolverKeepsInvariantForEveryMut : Obligations.ResolverKeepsInvariantForEveryMut := by
  intro M k bw o s t hM hi h
  cases hp : operandPhase k s o with
  | error e =>
    rw [resolve_of_operand_error hp, operandPhase_error hp] at h
    cases h
    exact hi
  | ok p =>
    cases hu : M k o.reg (singleWord k bw o) (linearSuccessor s o) p with
    | error e =>
      obtain ⟨u, hleft, hinv⟩ := mutContract_error hM hu
      rw [resolve_of_mut_error hp hu, hleft] at h
      cases h
      exact hinv (operandPhase_keeps_inv hp hi)
    | ok u =>
      have hres := resolve_of_ok hp hu
      rw [hres] at h
      cases h
      exact (resolve_next_keeps hM hres).2 hi

/-- Settles O55: a step that emits is a resolver run, whose operand phase emitted. -/
theorem traceWriters : Obligations.TraceWriters := by
  intro s t h htrace
  rcases step_next_single_or_setPc h with ⟨bw, o, k, hfetch, hres⟩ | ht
  · rcases resolve_next_trace (everyMutOfASessionMeetsContract s.cfg) hres with
      hsame | ⟨n, a, rfl, rfl | rfl, hdump⟩
    · exact absurd hsame htrace
    · exact ⟨bw, n, a, .inl hfetch, hdump⟩
    · exact ⟨bw, n, a, .inr hfetch, hdump⟩
  · rw [ht] at htrace
    exact absurd rfl htrace

end Sys2Proof.Proofs
end

section
/-! SUPPORT. A jump in the terms of its table (41_jumps.md R100): the word offset is the sign-extension of `f - 1`, and a
word of a jump's row decodes to that jump, its field being the low ten bits. And the instructions of the other families
end no step in Fatal or Refused (R109). -/

namespace Sys2Proof.Machine

open Sys2Proof.Safety

/-- The offset is `f - 1`, subtracted in the field's ten bits and then sign-extended: the two readings of
30_encoding.md R56 agree, since both have the same signed value. -/
theorem jumpOffset_eq_signExtend (f : BitVec 10) : jumpOffset f = (f - 1).signExtend 16 := by
  have hf := f.isLt
  have hsub : (f - 1).toNat = (1023 + f.toNat) % 1024 := by
    rw [BitVec.toNat_sub]
    rfl
  apply BitVec.eq_of_toInt_eq
  rw [Proofs.jumpOffsetRange f, BitVec.toInt_signExtend_of_le (by decide), BitVec.toInt_eq_toNat_cond, hsub]
  split_ifs <;> omega

/-- The Branch Evaluator with its target written out: twice the offset after the post-opcode address (R100). -/
theorem branch_eq (j : JumpOp) (f : BitVec 10) (s : State) :
    branch j f s =
      .next (s.setPc (if taken s.flags j then s.pc + 2 + 2 * (f - 1).signExtend 16 else s.pc + 2)) := by
  rw [← jumpOffset_eq_signExtend]
  rfl

/-- JGE is taken when N and V are alike (R106). -/
theorem taken_jge (f : Flags) : taken f .jge = (f.n == f.v) := by
  rw [taken]
  cases f.n <;> cases f.v <;> rfl

/-- A word with a jump's upper six bits is that jump's word with the low ten bits in the field. -/
theorem jumpWord_jumpField_of_mask {w : Word} {j : JumpOp} (h : w &&& 0xFC00#16 = jumpWord j 0#10) :
    jumpWord j (jumpField w) = w := by
  have hrow := toNat_and_FC00 w
  rw [h, toNat_jumpWord, BitVec.toNat_zero] at hrow
  apply BitVec.eq_of_toNat_eq
  rw [toNat_jumpWord, toNat_jumpField]
  omega

/-- A word of a jump's row decodes to that jump, whatever word follows it. -/
theorem decodeWords_of_mask {w : Word} {j : JumpOp} (h : w &&& 0xFC00#16 = jumpWord j 0#10) (x : Word) :
    decodeWords w x = .ofJump (jumpField w) j := by
  have hclass : classify w = .jump j := by rw [← jumpWord_jumpField_of_mask h, classify_jumpWord]
  rw [decodeWords, hclass]

/-- An instruction of no single-operand row goes on or ends the run normally. -/
theorem verdict_exec_of_not_single {i : Instr} (h : ∀ k, i.subtype ≠ .single k) (s : State) :
    verdict (exec i s) = .goesOn ∨ verdict (exec i s) = .normalEnd := by
  rcases instr_cases i with ⟨bw, o, k, rfl⟩ | rfl | ⟨f, j, rfl⟩ | ⟨r, d, rfl⟩ | ⟨w, rfl⟩
  · exact absurd (by cases k <;> rfl) (h k)
  · exact .inr rfl
  · rw [exec_ofJump]
    exact .inl rfl
  · rw [exec_ofDouble]
    exact .inr rfl
  · exact .inl rfl

end Sys2Proof.Machine
end

section
/-! The statements of 41_jumps.md. -/

namespace Sys2Proof.Proofs

open Sys2Proof.Machine Sys2Proof.Safety

/-- Settles O12: each jump is the Branch Evaluator with its own condition, and each row of the table is the mask of its
jump's word. -/
theorem jumpsFollowTheTable : Obligations.JumpsFollowTheTable := by
  intro s f go
  have hexec : ∀ j, exec (.ofJump f j) s = go (taken s.flags j) := fun j =>
    (exec_ofJump j f s).trans (branch_eq j f s)
  refine ⟨hexec .jnz, hexec .jz, hexec .jnc, hexec .jc, hexec .jn, taken_jge s.flags ▸ hexec .jge, hexec .jl, hexec .jmp, ?_⟩
  rintro w x rfl
  have hdecode : ∀ j, w &&& 0xFC00 = jumpWord j 0 → decodeWords w x = .ofJump (w.extractLsb' 0 10) j :=
    fun _ h => decodeWords_of_mask h x
  exact ⟨hdecode .jnz, hdecode .jz, hdecode .jnc, hdecode .jc, hdecode .jn, hdecode .jge, hdecode .jl, hdecode .jmp⟩

/-- Settles O57, by the shape of the fetch: only an odd address, a failing extension word, which a single-operand word
alone has, and a decoded single-operand word can end in Fatal or Refused. -/
theorem onlySingleOperandsFail : Obligations.OnlySingleOperandsFail := by
  intro s hunsafe
  rcases fetch_cases s with
    ⟨hodd, -⟩ | ⟨-, -, hf⟩ | ⟨-, w, -, -, hf⟩ | ⟨-, w, hl, hv, hext, -⟩ | ⟨-, w, x, hl, hv, hf⟩
  · exact .inl hodd
  · exact absurd (.inr (by rw [step_of_error hf]; rfl)) hunsafe
  · exact absurd (.inl (by rw [step_of_vector hf]; rfl)) hunsafe
  · obtain ⟨⟨k, hk⟩, -⟩ := (needsExtension_iff w).mp hext
    exact .inr ⟨w, k, hl, (inVectorRegion_iff s.pc).mp hv, hk⟩
  · have hrow : ∃ k, classify w = .single k := by
      by_contra hnone
      have hother : ∀ k, (decodeWords w x).subtype ≠ .single k := fun k hk =>
        hnone ⟨k, (subtype_decodeWords w x).symm.trans hk⟩
      rw [SafeStep, step_of_instr hf] at hunsafe
      exact hunsafe (verdict_exec_of_not_single hother s)
    obtain ⟨k, hk⟩ := hrow
    exact .inr ⟨w, k, hl, (inVectorRegion_iff s.pc).mp hv, hk⟩

/-- Settles O13, jump by jump. -/
theorem jumpsTakenWithFlagsAlike : Obligations.JumpsTakenWithFlagsAlike := by
  refine ⟨fun j => ?_, fun j => ?_⟩
  · cases j <;> decide
  · cases j <;> decide

end Sys2Proof.Proofs
end

section
/-! SUPPORT. The words of the double-operand rows and of the fallback row, decoded (30_encoding.md R53, R60). -/

namespace Sys2Proof

/-- A word with a double-operand opcode in its upper four bits is that row's word with the low twelve bits after it. -/
theorem doubleWord_unexaminedBits_of_mask {w : Word} {d : DoubleOp} (h : w &&& 0xF000#16 = doubleWord d 0#12) :
    doubleWord d (unexaminedBits w) = w := by
  have hrow : d.opcode.toNat * 4096 = w.toNat / 4096 * 4096 := by
    rw [← toNat_and_F000, h, toNat_doubleWord, BitVec.toNat_zero, Nat.add_zero]
  apply BitVec.eq_of_toNat_eq
  rw [toNat_doubleWord, toNat_unexaminedBits, hrow, Nat.div_add_mod']

/-- A word of a double-operand row decodes to that row's instruction, whatever word follows it. -/
theorem decodeWords_of_double_mask {w : Word} {d : DoubleOp} (h : w &&& 0xF000#16 = doubleWord d 0#12) (x : Word) :
    decodeWords w x = .ofDouble (unexaminedBits w) d := by
  have hclass : classify w = .double d := by rw [← doubleWord_unexaminedBits_of_mask h, classify_doubleWord]
  rw [decodeWords, hclass]

/-- A word of R60's list decodes to a NOP that keeps it, whatever word follows it. -/
theorem decodeWords_of_fallback {w : Word} (h : isFallbackWord w = true) (x : Word) : decodeWords w x = .nop w := by
  rw [decodeWords, classify_fallback h]

end Sys2Proof
end

section
/-! The statements of 42_double_operand_and_fallback.md. -/

namespace Sys2Proof.Proofs

open Sys2Proof.Machine

/-- Settles O14: each row is the mask of its opcode's word, and the twelve instructions share one handler, which stops
the run with the state it was given. -/
theorem doubleOperandsEndTheRun : Obligations.DoubleOperandsEndTheRun := by
  intro s w x stop r
  have hdecode : ∀ d, w &&& 0xF000 = doubleWord d 0 → decodeWords w x = .ofDouble r d :=
    fun _ h => decodeWords_of_double_mask h x
  have hexec : ∀ d, exec (.ofDouble r d) s = stop := fun d => exec_ofDouble d r s
  exact ⟨hdecode .mov, hexec .mov, hdecode .add, hexec .add, hdecode .addc, hexec .addc,
    hdecode .subc, hexec .subc, hdecode .sub, hexec .sub, hdecode .cmp, hexec .cmp,
    hdecode .dadd, hexec .dadd, hdecode .bit, hexec .bit, hdecode .bic, hexec .bic,
    hdecode .bis, hexec .bis, hdecode .xor, hexec .xor, hdecode .and, hexec .and⟩

/-- Settles O16: the word is one of the fallback row's, and a NOP's only effect is on the pc. -/
theorem nopOnlyAdvances : Obligations.NopOnlyAdvances :=
  fun _ _ x h => ⟨decodeWords_of_fallback h x, rfl⟩

end Sys2Proof.Proofs
end

section
/-! SUPPORT. Pushes that fail, and PUSH and CALL where the reference mutator stops (43_reference_execution_unit.md R145,
R146; 60_exceptions.md R154). -/

namespace Sys2Proof.Machine

open Sys2Proof.Safety

/-! ### Pushes that stop -/

/-- A push of a word to an odd slot. -/
theorem pushOnStack_odd {s : State} {sp : Word} (v : Word) (hodd : isOdd sp = true) :
    pushOnStack false sp v s = .error (endMisaligned (s.setReg 1 sp)) := by
  simp [pushOnStack, memWriteWord, hodd]

/-- A push of a word to an even slot out of range. -/
theorem pushOnStack_word_outOfRange {s : State} {sp : Word} (v : Word) (heven : isOdd sp = false)
    (hout : inRangeWord s.cfg sp = false) :
    pushOnStack false sp v s = .error (endFatal .outOfRange (s.setReg 1 sp)) := by
  have hstore : storeWord (s.setReg 1 sp) sp v = .error .outOfRange := storeWord_outOfRange v hout
  simp [pushOnStack, memWriteWord, heven, hstore]

/-- A push of a byte to a slot out of range. -/
theorem pushOnStack_byte_outOfRange {s : State} {sp : Word} (v : Word) (hout : inRangeByte s.cfg sp.toNat = false) :
    pushOnStack true sp v s = .error (endFatal .outOfRange (s.setReg 1 sp)) := by
  simp [pushOnStack, memWriteByte, storeByte, hout]

/-- A CALL whose push stops does so with it, before x[0] is written. -/
theorem callOnStack_of_push_error {s : State} {sp ret : Word} (v : Word) {e : Stop}
    (h : pushOnStack false sp ret s = .error e) : callOnStack sp ret v s = .error e := by
  rw [callOnStack, h]

/-! ### PUSH and CALL where the push stops -/

/-- A reference mutator that stops at the state of the operand phase: the step does. -/
theorem exec_reference_stop {k : SingleOp} {s p : State} {bw : Bool} {o : Operand} {e : Stop}
    (href : s.cfg.mutators = .reference) (hp : operandPhase k s o = .ok p)
    (he : refMut k o.reg (singleWord k bw o) (nextAddress s o) p = .error e) :
    exec (.ofSingle bw o k) s = e.outcome := by
  rw [exec_ofSingle, mutOf_reference href]
  exact resolve_eq_outcome hp he

/-- PUSH stops as the push at its stack slot does, whatever the operand is. -/
theorem exec_push_stop {s p : State} {bw : Bool} {o : Operand} {e : Stop} (href : s.cfg.mutators = .reference)
    (hp : operandPhase .push s o = .ok p) (he : ∀ v, pushOnStack bw (stackSlot p) v p = .error e) :
    exec (.push bw o) s = e.outcome := by
  refine exec_reference_stop (k := .push) href hp ?_
  rw [refMut, mutPush, byteFlag_singleWord]
  exact he _

/-- CALL stops as the push of a word at its stack slot does, whatever the return address is. -/
theorem exec_call_stop {s p : State} {bw : Bool} {o : Operand} {e : Stop} (href : s.cfg.mutators = .reference)
    (hp : operandPhase .call s o = .ok p) (he : ∀ v, pushOnStack false (stackSlot p) v p = .error e) :
    exec (.call bw o) s = e.outcome :=
  exec_reference_stop (k := .call) href hp (callOnStack_of_push_error _ (he _))

end Sys2Proof.Machine
end

section
/-! The statements of 43_reference_execution_unit.md. -/

namespace Sys2Proof.Proofs

open Sys2Proof.Machine Sys2Proof.Safety

/-- Settles O39: the two ways in which a push of a word stops, for PUSH and CALL alike, and the one of a byte. -/
theorem stackSlotStops : Obligations.StackSlotStops := by
  intro s bw o href hready p slot
  have hcfg : p.cfg = s.cfg := (withDump_cfg s o _).trans (operandState_frame hready).1
  have hpush : operandPhase .push s o = .ok p := operandPhase_of_ready .push hready
  have hcall : operandPhase .call s o = .ok p := operandPhase_of_ready .call hready
  refine ⟨fun hodd => ?_, fun heven hout => ?_, fun hout => ?_⟩
  · have hstop : ∀ v, pushOnStack false slot v p = .error (endMisaligned (p.setReg 1 slot)) :=
      fun v => pushOnStack_odd v hodd
    exact ⟨exec_push_stop href hpush hstop, exec_call_stop href hcall hstop⟩
  · have hstop : ∀ v, pushOnStack false slot v p = .error (endFatal .outOfRange (p.setReg 1 slot)) :=
      fun v => pushOnStack_word_outOfRange v heven (hcfg ▸ hout)
    exact ⟨exec_push_stop href hpush hstop, exec_call_stop href hcall hstop⟩
  · have hstop : ∀ v, pushOnStack true slot v p = .error (endFatal .outOfRange (p.setReg 1 slot)) :=
      fun v => pushOnStack_byte_outOfRange v (hcfg ▸ hout)
    exact exec_push_stop href hpush hstop

/-- Settles O40, by what each of the six leaves. -/
theorem referenceMutatorsMeetContract : Obligations.ReferenceMutatorsMeetContract :=
  refMut_meets_contract

end Sys2Proof.Proofs
end

section
/-! SUPPORT. How a step ends, by what it fetched (60_exceptions.md R154, R155): where NoResult comes from, and the state
that any outcome leaves. -/

namespace Sys2Proof.Machine

open Sys2Proof.Safety

/-! ### NoResult -/

/-- An instruction ends in NoResult as a double-operand one only, at the state it was given. -/
theorem exec_noResult {i : Instr} {s t : State} {r : NoResultReason} (h : exec i s = .fault (.noResult r t)) :
    t = s ∧ r = .doubleOperand ∧ ∃ d, i.subtype = .double d := by
  rcases instr_cases i with ⟨bw, o, k, rfl⟩ | rfl | ⟨f, j, rfl⟩ | ⟨rest, d, rfl⟩ | ⟨w, rfl⟩
  · rw [exec_ofSingle] at h
    rcases resolve_cases s.cfg k bw o s with ⟨u, hu⟩ | ⟨u, hu⟩ | ⟨kind, u, -, hu⟩ <;> cases h.symm.trans hu
  · cases h
  · rw [exec_ofJump] at h
    cases h
  · rw [exec_ofDouble] at h
    cases h
    exact ⟨rfl, rfl, d, by cases d <;> rfl⟩
  · cases h

/-- A step ends in NoResult at the state it began in, in one of two forms: its opcode word cannot be read, or that word
is of a double-operand row. -/
theorem step_noResult {s t : State} {r : NoResultReason} (h : step s = .fault (.noResult r t)) :
    t = s ∧ ((r = .fetchUnreadable ∧ ∃ k, loadWord s s.pc = .error k) ∨
      (r = .doubleOperand ∧ ∃ w d, loadWord s s.pc = .ok w ∧ classify w = .double d)) := by
  rcases fetch_cases s with
    ⟨-, hf⟩ | ⟨-, hunreadable, hf⟩ | ⟨-, w, -, -, hf⟩ | ⟨-, w, -, -, -, k, -, hf⟩ | ⟨-, w, x, hl, -, hf⟩
  · cases h.symm.trans (step_of_error hf)
  · cases h.symm.trans (step_of_error hf)
    exact ⟨rfl, .inl ⟨rfl, hunreadable⟩⟩
  · cases h.symm.trans (step_of_vector hf)
  · cases h.symm.trans (step_of_error hf)
  · obtain ⟨ht, hr, d, hd⟩ := exec_noResult ((step_of_instr hf).symm.trans h)
    exact ⟨ht, .inr ⟨hr, w, d, hl, (subtype_decodeWords w x).symm.trans hd⟩⟩

/-! ### The state that an outcome leaves -/

/-- An instruction leaves the state that a resolver run leaves, or one that differs in the pc at most. -/
theorem exec_left_single_or_setPc {i : Instr} {s t : State} (h : leftState (exec i s) = some t) :
    (∃ bw o k, i = .ofSingle bw o k ∧ leftState (resolve (mutOf s.cfg) k bw o s) = some t) ∨ t = s.setPc t.pc := by
  rcases instr_cases i with ⟨bw, o, k, rfl⟩ | rfl | ⟨f, j, rfl⟩ | ⟨rest, d, rfl⟩ | ⟨w, rfl⟩
  · rw [exec_ofSingle] at h
    exact .inl ⟨bw, o, k, rfl, h⟩
  · cases h
    exact .inr rfl
  · rw [exec_ofJump] at h
    cases h
    exact .inr rfl
  · rw [exec_ofDouble] at h
    cases h
    exact .inr rfl
  · cases h
    exact .inr rfl

/-- A fetch that ends the step leaves the state as it was. -/
theorem fetch_error_left {s : State} {e : Stop} (h : fetch s = .error e) : leftState e.outcome = some s := by
  rcases fetch_cases s with ⟨-, hf⟩ | ⟨-, -, hf⟩ | ⟨-, _, -, -, hf⟩ | ⟨-, _, -, -, -, _, -, hf⟩ | ⟨-, _, _, -, -, hf⟩ <;>
    cases h.symm.trans hf <;> rfl

/-- A step, whether it goes on or stops, leaves the state that a resolver run under the session's Mut leaves, or one that
differs in the pc at most. -/
theorem step_left_single_or_setPc {s t : State} (h : leftState (step s) = some t) :
    (∃ bw o k, Fetches s (.ofSingle bw o k) ∧ leftState (resolve (mutOf s.cfg) k bw o s) = some t) ∨
      t = s.setPc t.pc := by
  cases hf : fetch s with
  | error e =>
    rw [step_of_error hf, fetch_error_left hf] at h
    cases h
    exact .inr rfl
  | ok fetched =>
    cases fetched with
    | vector w =>
      rw [step_of_vector hf] at h
      cases h
      exact .inr rfl
    | instr i =>
      rw [step_of_instr hf] at h
      rcases exec_left_single_or_setPc h with ⟨bw, o, k, rfl, hres⟩ | ht
      · exact .inl ⟨bw, o, k, hf, hres⟩
      · exact .inr ht

end Sys2Proof.Machine
end

section
/-! The statements of 60_exceptions.md. -/

namespace Sys2Proof.Proofs

open Sys2Proof.Machine Sys2Proof.Safety

/-- Settles O17: the two forms of NoResult exclude each other, and both leave the state the step began in. -/
theorem noResultLeavesTheState : Obligations.NoResultLeavesTheState := by
  intro s t r h
  obtain ⟨ht, ⟨rfl, hunreadable⟩ | ⟨rfl, hdouble⟩⟩ := step_noResult h
  · exact ⟨ht, fun _ => hunreadable, nofun⟩
  · exact ⟨ht, nofun, fun _ => hdouble⟩

/-- Settles O29: the operand phase of a ready operand gives the state in which the mutator stops, and the resolver ends
as the mutator does, before the increment. -/
theorem mutatorStopIsNotRolledBack : Obligations.MutatorStopIsNotRolledBack :=
  fun _ k _ _ _ _ _ hready hstop => resolve_eq_outcome (operandPhase_of_ready k hready) hstop

/-- Settles O49: the session's Mut meets the contract, so a resolver run leaves a state with the invariant wherever it
ends; every other step leaves the memory and the parameters as they were. -/
theorem stopsLeaveInvariant : Obligations.StopsLeaveInvariant := by
  intro s t hi h
  rcases step_left_single_or_setPc h with ⟨bw, o, k, -, hres⟩ | ht
  · exact resolverKeepsInvariantForEveryMut (mutOf s.cfg) k bw o s t (everyMutOfASessionMeetsContract s.cfg) hi hres
  · rw [ht, inv_setPc]
    exact hi

end Sys2Proof.Proofs
end

section
/-! SUPPORT. What the statements of 70_reset_and_hazards.md need: where an operand load ends (R175, R176), which reference
mutators leave x[0] and the memory alone (R180), what a step's verdict says of its outcome, which words end a run, and a run
by its first step (R183). -/

namespace Sys2Proof

theorem subtype_ofSingle (bw : Bool) (o : Operand) (k : SingleOp) : (Instr.ofSingle bw o k).subtype = .single k := by
  cases k <;> rfl

theorem subtype_ofJump (f : BitVec 10) (j : JumpOp) : (Instr.ofJump f j).subtype = .jump j := by
  cases j <;> rfl

theorem subtype_ofDouble (rest : BitVec 12) (d : DoubleOp) : (Instr.ofDouble rest d).subtype = .double d := by
  cases d <;> rfl

/-- The double-operand rows are the upper three quarters of the words. -/
theorem classify_double_iff (w : Word) : (∃ d, classify w = .double d) ↔ 0x4000 ≤ w.toNat := by
  constructor
  · rintro ⟨d, hd⟩
    have hopcode : 4 ≤ d.opcode.toNat := by cases d <;> decide
    rw [← toNat_of_classify_double hd] at hopcode
    omega
  · intro hw
    rcases classify_cases w with ⟨k, -, hq⟩ | ⟨-, rfl⟩ | ⟨j, -, hq⟩ | ⟨d, hd, -⟩ | ⟨-, hf⟩
    · have := k.selector.isLt
      omega
    · exact absurd hw (by decide)
    · have := j.cond.isLt
      omega
    · exact ⟨d, hd⟩
    · rw [isFallbackWord_iff] at hf
      omega

end Sys2Proof

namespace Sys2Proof.Machine

open Sys2Proof.Safety

/-! ### The operand load -/

/-- An operand load that succeeds ends at an even address, where its value stands. -/
theorem operandLoad_ok {s : State} {ea : Word} {om : Bool} {l : Loaded} (h : operandLoad s ea om = .ok l) :
    isOdd l.address = false ∧ loadWord l.state l.address = .ok l.value := by
  have heven : isOdd ea = false :=
    Bool.eq_false_iff.mpr fun hodd => nomatch h.symm.trans (operandLoad_odd om hodd)
  rcases operandLoad_cases s ea om with ⟨w, hl, h'⟩ | ⟨k, a, hl, ha, -, -⟩ | h' | h'
  · cases h.symm.trans h'
    exact ⟨heven, hl⟩
  · rw [operandLoad_of_repairAddress heven hl ha] at h
    rcases repairLoad_cases s a with ⟨-, h'⟩ | ⟨-, -, h'⟩ | ⟨haeven, hin, h'⟩ <;> cases h.symm.trans h'
    exact ⟨haeven, loadWord_setWord_same s sentinel hin⟩
  · cases h.symm.trans h'
  · cases h.symm.trans h'

/-! ### x[0] and the memory under the reference mutators -/

/-- The reference mutators but CALL leave x[0], unless it is the operand's own register. -/
theorem refMut_reg_zero {k : SingleOp} (hcall : k ≠ .call) {n : Reg} (hn : n ≠ 0) {w lin : Word} {s t : State}
    (h : refMut k n w lin s = .ok t) : t.reg 0 = s.reg 0 := by
  by_cases hpush : k = .push
  · subst hpush
    exact (refMut_push_frame h).1 0 (by decide)
  · exact (refMut_rotate_frame hpush hcall h).1 0 hn.symm

/-- The reference RRC, SWPB, RRA and SXT leave the memory. -/
theorem refMut_rotate_mem {k : SingleOp} (hpush : k ≠ .push) (hcall : k ≠ .call) {n : Reg} {w lin : Word}
    {s t : State} (h : refMut k n w lin s = .ok t) : t.mem = s.mem := by
  obtain ⟨r, f, h', -⟩ := refMut_register_only hpush hcall n w lin s
  cases h.symm.trans h'
  rfl

/-- A resolver run that goes on without a repair leaves the memory that its mutator leaves, which found the step's. -/
theorem resolve_next_mem {M : Mut} {k : SingleOp} {bw : Bool} {o : Operand} {s t : State}
    (h : resolve M k bw o s = .next t) (hrepair : repairSite s o = none)
    (hM : ∀ w lin p u, M k o.reg w lin p = .ok u → u.mem = p.mem) : t.mem = s.mem := by
  obtain ⟨p, u, hp, hu, rfl⟩ := resolve_next h
  obtain ⟨-, -, -, -, hmem, -⟩ := operandPhase_ok hp
  rcases hmem with ⟨-, hmem⟩ | ⟨a, hsite, -⟩
  · rw [State.setPc_mem, incrementPhase_mem, hM _ _ _ _ hu, hmem]
  · cases hrepair.symm.trans hsite

/-! ### The verdict of a step -/

/-- What a step's verdict says of its outcome: a normal end leaves the state the step began in, a failure has one of two
kinds, and the one outcome without a meaning is the refusal of an odd address. -/
theorem verdict_step_cases (s : State) :
    verdict (step s) = .goesOn ∨
    (verdict (step s) = .normalEnd ∧ leftState (step s) = some s) ∨
    (verdict (step s) = .failed ∧
      ∃ t, step s = .fault (.fatal .uninitialized t) ∨ step s = .fault (.fatal .outOfRange t)) ∨
    (verdict (step s) = .noMeaning ∧ ∃ t, step s = .refused (.misaligned t)) := by
  rcases step_cases s with ⟨t, h⟩ | ⟨r, h⟩ | h | ⟨k, t, hk, h⟩ | ⟨t, h⟩ <;> rw [h]
  · exact .inl rfl
  · exact .inr (.inl ⟨rfl, rfl⟩)
  · exact .inr (.inl ⟨rfl, rfl⟩)
  · refine .inr (.inr (.inl ⟨rfl, t, ?_⟩))
    cases k with
    | uninitialized => exact .inl rfl
    | outOfRange => exact .inr rfl
    | other => exact absurd rfl hk
  · exact .inr (.inr (.inr ⟨rfl, t, rfl⟩))

theorem leftState_step_of_normalEnd {s : State} (h : verdict (step s) = .normalEnd) : leftState (step s) = some s := by
  rcases verdict_step_cases s with h' | ⟨-, hleft⟩ | ⟨h', -⟩ | ⟨h', -⟩
  case inr.inl => exact hleft
  all_goals cases h.symm.trans h'

theorem verdict_step_failed_iff (s : State) :
    verdict (step s) = .failed ↔
      ∃ t, step s = .fault (.fatal .uninitialized t) ∨ step s = .fault (.fatal .outOfRange t) := by
  constructor
  · intro h
    rcases verdict_step_cases s with h' | ⟨h', -⟩ | ⟨-, ht⟩ | ⟨h', -⟩
    case inr.inr.inl => exact ht
    all_goals cases h.symm.trans h'
  · rintro ⟨t, h | h⟩ <;> rw [h] <;> rfl

theorem verdict_step_noMeaning_iff (s : State) :
    verdict (step s) = .noMeaning ↔ ∃ t, step s = .refused (.misaligned t) := by
  constructor
  · intro h
    rcases verdict_step_cases s with h' | ⟨h', -⟩ | ⟨h', -⟩ | ⟨-, ht⟩
    case inr.inr.inr => exact ht
    all_goals cases h.symm.trans h'
  · rintro ⟨t, h⟩
    rw [h]
    rfl

/-- An instruction ends the run normally exactly when it is RETI or a double-operand one. -/
theorem verdict_exec_normalEnd_iff (i : Instr) (s : State) :
    verdict (exec i s) = .normalEnd ↔ i.subtype = .reti ∨ ∃ d, i.subtype = .double d := by
  rcases instr_cases i with ⟨bw, o, k, rfl⟩ | rfl | ⟨f, j, rfl⟩ | ⟨r, d, rfl⟩ | ⟨w, rfl⟩
  · rw [exec_ofSingle, subtype_ofSingle]
    rcases resolve_cases s.cfg k bw o s with ⟨t, h⟩ | ⟨t, h⟩ | ⟨kind, t, -, h⟩ <;> simp [h, verdict]
  · exact iff_of_true rfl (.inl rfl)
  · rw [exec_ofJump, subtype_ofJump]
    simp [branch, verdict]
  · rw [exec_ofDouble, subtype_ofDouble]
    exact iff_of_true rfl (.inr ⟨d, rfl⟩)
  · simp [exec, execNop, verdict, Instr.subtype]

/-- A step ends the run normally exactly when its word, at an even address, cannot be read, or is, below the vector region,
RETI or a double-operand word. -/
theorem verdict_step_normalEnd_iff (s : State) :
    verdict (step s) = .normalEnd ↔
      isOdd s.pc = false ∧
        ((∃ k, loadWord s s.pc = .error k) ∨
          (s.pc.toNat < 0xFFC0 ∧ ∃ w, loadWord s s.pc = .ok w ∧ (w = 0x1300 ∨ 0x4000 ≤ w.toNat))) := by
  simp only [← classify_reti_iff, ← classify_double_iff, ← inVectorRegion_iff]
  rcases fetch_cases s with
    ⟨hodd, hf⟩ | ⟨heven, hk, hf⟩ | ⟨-, w, hl, hv, hf⟩ | ⟨-, w, hl, -, hext, k, -, hf⟩ | ⟨heven, w, x, hl, hv, hf⟩
  · rw [step_of_error hf, endMisaligned_outcome]
    simp [verdict, hodd]
  · rw [step_of_error hf, endNoResult_outcome]
    exact iff_of_true rfl ⟨heven, .inl hk⟩
  · rw [step_of_vector hf]
    simp [verdict, hl, hv]
  · obtain ⟨⟨k, hk⟩, -⟩ := (needsExtension_iff w).mp hext
    rw [step_of_error hf, endFatal_outcome]
    simp [verdict, hl, hk]
  · rw [step_of_instr hf, verdict_exec_normalEnd_iff, subtype_decodeWords]
    simp [heven, hl, hv]

/-! ### Runs of a machine -/

theorem run_succ_of_next {M : Host.Core} {s t : M.State} (k : Nat) (h : M.step s = .next t) :
    M.run (k + 1) s = M.run k t := by
  rw [Host.Core.run, h]

/-- A run whose first step has no next state ends as that step does. -/
theorem run_succ_of_stop {M : Host.Core} {s : M.State} (k : Nat) (h : ∀ t, M.step s ≠ .next t) :
    M.run (k + 1) s = M.step s := by
  rw [Host.Core.run]
  cases hs : M.step s with
  | next t => exact absurd hs (h t)
  | fault r => rfl
  | refused r => rfl

/-- A run that stops reached a state whose step gave its outcome. -/
theorem run_stops_at_step {M : Host.Core} {k : Nat} {s : M.State} (h : ∀ t, M.run k s ≠ .next t) :
    ∃ j u, j < k ∧ M.run j s = .next u ∧ M.step u = M.run k s := by
  induction k generalizing s with
  | zero => exact absurd rfl (h s)
  | succ k ih =>
    by_cases hnext : ∃ t, M.step s = .next t
    · obtain ⟨t, ht⟩ := hnext
      rw [run_succ_of_next k ht] at h ⊢
      obtain ⟨j, u, hj, hrun, hu⟩ := ih h
      exact ⟨j + 1, u, Nat.succ_lt_succ hj, (run_succ_of_next j ht).trans hrun, hu⟩
    · exact ⟨0, s, k.succ_pos, rfl, (run_succ_of_stop k (not_exists.mp hnext)).symm⟩

end Sys2Proof.Machine
end

section
/-! The statements of 70_reset_and_hazards.md. -/

namespace Sys2Proof.Proofs

open Sys2Proof.Machine Sys2Proof.Safety

/-- Settles O21: the first load ended at an even address with its value there, so that the second one succeeds at once. -/
theorem secondReadIsPlain : Obligations.SecondReadIsPlain := by
  intro s ea omitted again l h
  obtain ⟨heven, hl⟩ := operandLoad_ok h
  exact ⟨hl, operandLoad_of_loadWord again heven hl⟩

/-- Settles O53: a step that changes a register is a resolver run, and the reference mutators but CALL leave x[0] where it is
not the operand's. -/
theorem registerZeroWriters : Obligations.RegisterZeroWriters := by
  intro s t h hreg
  rcases step_next_single_or_setPc h with ⟨bw, o, k, hfetch, hres⟩ | ht
  · refine ⟨bw, o, k, hfetch, fun href => ?_⟩
    by_contra hk
    obtain ⟨hcall, hzero⟩ := not_or.mp hk
    rw [mutOf_reference href] at hres
    exact hreg (resolve_next_reg hres (Ne.symm hzero) fun _ _ _ _ => refMut_reg_zero hcall hzero)
  · rw [ht] at hreg
    exact absurd rfl hreg

/-- Settles O54: a step that changes the memory is a resolver run, and with the reference mutators but PUSH and CALL only a
repair stores. -/
theorem memoryWriters : Obligations.MemoryWriters := by
  intro s t h hmem
  rcases step_next_single_or_setPc h with ⟨bw, o, k, hfetch, hres⟩ | ht
  · refine ⟨bw, o, k, hfetch, fun href => ?_⟩
    by_contra hk
    obtain ⟨hpush, hk⟩ := not_or.mp hk
    obtain ⟨hcall, hrepair⟩ := not_or.mp hk
    rw [mutOf_reference href] at hres
    exact hmem (resolve_next_mem hres (Option.not_isSome_iff_eq_none.mp hrepair) fun _ _ _ _ =>
      refMut_rotate_mem hpush hcall)
  · rw [ht] at hmem
    exact absurd rfl hmem

/-- Settles O59: the verdict of each step by what it fetched and how it ended; and a run that stops reached a state whose
step gave its outcome. -/
theorem runEndsAtFirstStop : Obligations.RunEndsAtFirstStop := by
  refine ⟨verdict_step_normalEnd_iff, fun s => leftState_step_of_normalEnd, verdict_step_failed_iff,
    verdict_step_noMeaning_iff, ?_⟩
  rintro k s o rfl hstop
  have hnext : ∀ t, Sys2Proof.core.run k s ≠ .next t := fun t ht => hstop (congrArg verdict ht)
  obtain ⟨j, u, hj, hrun, hu⟩ := run_stops_at_step hnext
  refine ⟨j, u, hj, hrun, hu, fun hend => ?_⟩
  rw [← hu] at hend ⊢
  exact leftState_step_of_normalEnd hend

end Sys2Proof.Proofs
end
